-- ==== Sys2Proof/Word.lean ====
section
/-! DEFINITION. The two word sizes of the hardware: bytes of the instruction stream and 16-bit register values
(rules R8, R20, R50). -/

namespace Sys2Proof

/-- A byte, an "8-bit unsigned value" (rule R8). -/
abbrev Byte := BitVec 8

/-- A 16-bit value: a register, the instruction pointer, an ALU result, a two-byte immediate (rules R7, R20, R26). -/
abbrev Word := BitVec 16

end Sys2Proof
end

