-- ==== Sys2Proof/Config.lean ====
section
/-! DEFINITION. What an implementation fixes (rule R7's parameters that are constants of the model). The spec leaves no
value undefined, so there is no free value here; the two policies it names as parameters (93_implementation_defined.md
U3 and U4) are taken at their defaults by the meanings themselves (log entries 5 and 6). -/

namespace Sys2Proof.Config

/-- The entry point: "execution starts at offset 0" (rules R59, R231). -/
def entryPoint : Word := 0

/-- The longest instruction has six bytes (rule R70). -/
def maxInstructionBytes : Nat := 6

/-- DESIGN CHOICE (log entry 3), safe: the byte that an offset below the stream's length has when the model's list
does not name it. It only says how the zero bytes of a stream are written down: every stream has exactly one listing,
and no byte of a stream is ever without a value (rule R232). -/
def unlistedByte : Byte := 0

end Sys2Proof.Config
end

