-- ==== Sys2Proof/Syntax.lean ====
section
/-! DEFINITION. The instructions: one constructor of `Instr` per row of spec/opcode_table.json (rules R80, R81), over the
fields that the five formats give them (rules R72 to R76). -/

namespace Sys2Proof

/-- The `w` bit: the operand width and the register name table (rule R77). -/
inductive Width where
  /-- w = 0: 8-bit operands, the names al to bh -/
  | byte
  /-- w = 1: 16-bit operands, the names ax to di -/
  | word
deriving DecidableEq, Repr

/-- The `d` bit of format RM (rule R78). -/
inductive Direction where
  /-- d = 0: the r/m operand is the destination, `reg` the source -/
  | toRm
  /-- d = 1: `reg` is the destination, the r/m operand the source -/
  | toReg
deriving DecidableEq, Repr

/-- A 3-bit register field: a register number at w = 1, a byte view number at w = 0 (rules R20, R23, R83). -/
abbrev RegField := BitVec 3

/-- The addressing mode named by the two `mod` bits (rule R82). -/
inductive AddressingMode where
  /-- mod = 11 -/
  | registerMode
  /-- mod = 00 -/
  | memoryNoDisplacement
  /-- mod = 01 -/
  | memoryDisplacement8
  /-- mod = 10 -/
  | memoryDisplacement16
deriving DecidableEq, Repr

/-- What the `mod` and `rm` fields and the displacement bytes say (rules R82, R84 to R86). -/
inductive RmField where
  /-- mod = 11: the register `r` -/
  | reg (r : RegField)
  /-- mod = 00, rm not 110: the base expression `base` alone -/
  | base (base : RegField)
  /-- mod = 01: the base expression with one displacement byte -/
  | baseDisp8 (base : RegField) (disp : Byte)
  /-- mod = 10: the base expression with two displacement bytes -/
  | baseDisp16 (base : RegField) (disp : Word)
  /-- mod = 00, rm = 110: a 16-bit direct address -/
  | direct (addr : Word)
deriving DecidableEq, Repr

/-- The data bytes of an immediate: one or two of them (rules R87, R88). -/
inductive Imm where
  /-- one data byte -/
  | imm8 (v : Byte)
  /-- two data bytes, low byte first -/
  | imm16 (v : Word)
deriving DecidableEq, Repr

/-- The operations of the ALU's instructions (rule R160). -/
inductive AluOp where
  | add | sub | cmp
deriving DecidableEq, Repr

/-- The operations of format RM (rule R72). -/
inductive DataOp where
  | mov
  | alu (op : AluOp)
deriving DecidableEq, Repr

/-- The twenty jump and loop mnemonics, in the order of rule R81. -/
inductive Jcc where
  | jo | jno | jb | jnb | jz | jnz | jbe | ja | js | jns | jp | jnp | jl | jnl | jle | jg
  | loopnz | loopz | loop | jcxz
deriving DecidableEq, Repr

/-- The result of the matcher's first stage: the kind of one entry of its table (rule R112). -/
inductive OuterKind where
  /-- MOV_RM_REG, ADD_RM_REG, SUB_RM_REG, CMP_RM_REG -/
  | rmReg (op : DataOp)
  /-- MOV_IMM_REG -/
  | movImmReg
  /-- ADD_IMM_ACC, SUB_IMM_ACC, CMP_IMM_ACC -/
  | immAcc (op : AluOp)
  /-- GRP_IMM_RM, its sub-operation not yet looked up -/
  | grpImmRm
  /-- JCC(k) -/
  | jcc (c : Jcc)
deriving DecidableEq, Repr

/-- The result of both stages: the group form carries its sub-operation (rule R113). -/
inductive Kind where
  | rmReg (op : DataOp)
  | movImmReg
  | immAcc (op : AluOp)
  | grpImmRm (op : AluOp)
  | jcc (c : Jcc)
deriving DecidableEq, Repr

/-- The 31 instructions (rules R80, R81). -/
inductive Instr where
  /-- mov r/m, reg and mov reg, r/m (R150) -/
  | movRmReg (d : Direction) (w : Width) (reg : RegField) (rm : RmField)
  /-- mov reg, imm (R151); w is told by the number of data bytes (R87) -/
  | movImmReg (reg : RegField) (imm : Imm)
  /-- add r/m, reg and add reg, r/m (R164) -/
  | addRmReg (d : Direction) (w : Width) (reg : RegField) (rm : RmField)
  /-- add ax, imm16 and add al, imm8 (R165) -/
  | addImmAcc (imm : Imm)
  /-- sub r/m, reg and sub reg, r/m (R166) -/
  | subRmReg (d : Direction) (w : Width) (reg : RegField) (rm : RmField)
  /-- sub ax, imm16 and sub al, imm8 (R167) -/
  | subImmAcc (imm : Imm)
  /-- cmp r/m, reg and cmp reg, r/m (R168) -/
  | cmpRmReg (d : Direction) (w : Width) (reg : RegField) (rm : RmField)
  /-- cmp ax, imm16 and cmp al, imm8 (R169) -/
  | cmpImmAcc (imm : Imm)
  /-- add r/m, imm (R170) -/
  | addImmRm (s : Bool) (w : Width) (rm : RmField) (imm : Imm)
  /-- sub r/m, imm (R171) -/
  | subImmRm (s : Bool) (w : Width) (rm : RmField) (imm : Imm)
  /-- cmp r/m, imm (R172) -/
  | cmpImmRm (s : Bool) (w : Width) (rm : RmField) (imm : Imm)
  /-- jo disp8 (R185) -/
  | jo (disp : Byte)
  /-- jno disp8 (R186) -/
  | jno (disp : Byte)
  /-- jb disp8 (R187) -/
  | jb (disp : Byte)
  /-- jnb disp8 (R188) -/
  | jnb (disp : Byte)
  /-- jz disp8 (R189) -/
  | jz (disp : Byte)
  /-- jnz disp8 (R181) -/
  | jnz (disp : Byte)
  /-- jbe disp8 (R190) -/
  | jbe (disp : Byte)
  /-- ja disp8 (R191) -/
  | ja (disp : Byte)
  /-- js disp8 (R192) -/
  | js (disp : Byte)
  /-- jns disp8 (R193) -/
  | jns (disp : Byte)
  /-- jp disp8 (R194) -/
  | jp (disp : Byte)
  /-- jnp disp8 (R195) -/
  | jnp (disp : Byte)
  /-- jl disp8 (R196) -/
  | jl (disp : Byte)
  /-- jnl disp8 (R197) -/
  | jnl (disp : Byte)
  /-- jle disp8 (R198) -/
  | jle (disp : Byte)
  /-- jg disp8 (R199) -/
  | jg (disp : Byte)
  /-- loopnz disp8 (R200) -/
  | loopnz (disp : Byte)
  /-- loopz disp8 (R201) -/
  | loopz (disp : Byte)
  /-- loop disp8 (R202) -/
  | loop (disp : Byte)
  /-- jcxz disp8 (R203) -/
  | jcxz (disp : Byte)
deriving DecidableEq, Repr

/-- An instruction seen as its format and fields (rules R72 to R76): the decoder, the encoder, the length and the
record are written once over this, and `Instr.format` and `Format.toInstr` go between the two. -/
inductive Format where
  /-- format RM (R72) -/
  | rm (op : DataOp) (d : Direction) (w : Width) (reg : RegField) (rm : RmField)
  /-- format IR (R73) -/
  | ir (reg : RegField) (imm : Imm)
  /-- format IA (R74) -/
  | ia (op : AluOp) (imm : Imm)
  /-- format GI (R75) -/
  | gi (op : AluOp) (s : Bool) (w : Width) (rm : RmField) (imm : Imm)
  /-- format J (R76) -/
  | j (c : Jcc) (disp : Byte)
deriving DecidableEq, Repr

end Sys2Proof
end

