-- ==== Sys2Proof/Machine/BitFields.lean ====
section
/-! DEFINITION. The bit-field extractor (rule R110), the joining and widening of bytes (rules R8, R53, R55), and the byte
counts that the fields of an instruction give (rules R85, R87, R88). -/

namespace Sys2Proof.Machine

/-- The BitFieldExtractor: the `n` bits of `b` from bit `lo` upward, that is `field(b, lo+n-1, lo)` (rule R110). -/
def field (b : Byte) (lo n : Nat) : BitVec n := b.extractLsb' lo n

/-- A field of one bit, as a truth value (rule R110). -/
def bit (b : Byte) (i : Nat) : Bool := b.getLsbD i

/-- The width that a `w` bit names (rule R77). -/
def widthOf (w : Bool) : Width := if w then .word else .byte

/-- The direction that a `d` bit names (rule R78). -/
def directionOf (d : Bool) : Direction := if d then .toReg else .toRm

/-- The `w` bit of a width (rule R77). -/
def widthBit : Width → BitVec 1
  | .byte => 0
  | .word => 1

/-- The `d` bit of a direction (rule R78). -/
def directionBit : Direction → BitVec 1
  | .toRm => 0
  | .toReg => 1

/-- Two bytes as a 16-bit value, the first on the high side: `hi ++ lo` (rule R8). -/
def join (hi lo : Byte) : Word := hi ++ lo

/-- Two consecutive stream bytes as a 16-bit value, the one at the lower offset being the low byte (rules R53, R55). -/
def le16 (lo hi : Byte) : Word := join hi lo

/-- `zext_16` of a byte (rule R8). -/
def zext16 (b : Byte) : Word := b.setWidth 16

/-- `sext_16` of a byte (rule R8). -/
def sext16 (b : Byte) : Word := b.signExtend 16

/-- Bits 7:0 of a 16-bit value (rules R23, R163). -/
def lowByte (v : Word) : Byte := v.extractLsb' 0 8

/-- Bits 15:8 of a 16-bit value (rule R23). -/
def highByte (v : Word) : Byte := v.extractLsb' 8 8

/-- The displacement byte count `nd` (rule R85). -/
def dispCount (mod : BitVec 2) (rm : RegField) : Nat :=
  if mod = 0b01#2 then 1
  else if mod = 0b10#2 then 2
  else if mod = 0b00#2 ∧ rm = 0b110#3 then 2
  else 0

/-- The data byte count `ni` of formats IR and IA (rule R87). -/
def dataCount : Width → Nat
  | .byte => 1
  | .word => 2

/-- The data byte count `ni` of format GI (rule R88): for cmp the mirror image of add and sub, on purpose. -/
def grpDataCount (op : AluOp) (s : Bool) (w : Width) : Nat :=
  match op, s, w with
  | .cmp, true, .word => 2
  | .add, false, .word => 2
  | .sub, false, .word => 2
  | .add, true, .word => 1
  | .sub, true, .word => 1
  | .cmp, false, .word => 1
  | _, _, .byte => 1

/-- How many data bytes an immediate has. -/
def immCount : Imm → Nat
  | .imm8 _ => 1
  | .imm16 _ => 2

/-- The width that the number of data bytes tells in formats IR and IA (rule R87). -/
def immWidth : Imm → Width
  | .imm8 _ => .byte
  | .imm16 _ => .word

/-- The `mod` bits of a register-or-memory field (rule R82). -/
def modBits : RmField → BitVec 2
  | .reg _ => 0b11#2
  | .base _ => 0b00#2
  | .baseDisp8 _ _ => 0b01#2
  | .baseDisp16 _ _ => 0b10#2
  | .direct _ => 0b00#2

/-- The `rm` bits of a register-or-memory field (rule R84). -/
def rmBits : RmField → RegField
  | .reg r => r
  | .base b => b
  | .baseDisp8 b _ => b
  | .baseDisp16 b _ => b
  | .direct _ => 0b110#3

/-- The addressing mode of a register-or-memory field (rule R82). -/
def modeOf : RmField → AddressingMode
  | .reg _ => .registerMode
  | .base _ => .memoryNoDisplacement
  | .baseDisp8 _ _ => .memoryDisplacement8
  | .baseDisp16 _ _ => .memoryDisplacement16
  | .direct _ => .memoryNoDisplacement

/-- How many displacement bytes a register-or-memory field consumes (rule R85). -/
def rmDispCount (f : RmField) : Nat := dispCount (modBits f) (rmBits f)

end Sys2Proof.Machine
end

