-- ==== Sys2Proof/WellFormed.lean ====
section
/-! DEFINITION. Which terms of `Instr` stand for an encoding. Two checks: a base expression without displacement is not
number 110, whose slot the direct address takes (rule R84), and a group immediate has the number of data bytes that
rule R88 gives it. Every other field value is legal (rule R92). -/

namespace Sys2Proof

/-- mod = 00 with rm = 110 is the direct address, so no base expression without displacement has that number (R84). -/
def RmField.wf : RmField → Bool
  | .base b => decide (b ≠ 0b110#3)
  | .reg _ | .baseDisp8 _ _ | .baseDisp16 _ _ | .direct _ => true

/-- A group immediate carries exactly the data bytes of rule R88. -/
def grpImmWf (op : AluOp) (s : Bool) (w : Width) (imm : Imm) : Bool :=
  decide (Machine.immCount imm = Machine.grpDataCount op s w)

/-- The instruction is one that some byte sequence encodes. -/
def Instr.wf : Instr → Bool
  | .movRmReg _ _ _ rm => rm.wf
  | .movImmReg _ _ => true
  | .addRmReg _ _ _ rm => rm.wf
  | .addImmAcc _ => true
  | .subRmReg _ _ _ rm => rm.wf
  | .subImmAcc _ => true
  | .cmpRmReg _ _ _ rm => rm.wf
  | .cmpImmAcc _ => true
  | .addImmRm s w rm imm => rm.wf && grpImmWf .add s w imm
  | .subImmRm s w rm imm => rm.wf && grpImmWf .sub s w imm
  | .cmpImmRm s w rm imm => rm.wf && grpImmWf .cmp s w imm
  | .jo _ | .jno _ | .jb _ | .jnb _ | .jz _ | .jnz _ | .jbe _ | .ja _ | .js _ | .jns _ | .jp _ | .jnp _
  | .jl _ | .jnl _ | .jle _ | .jg _ | .loopnz _ | .loopz _ | .loop _ | .jcxz _ => true

/-- The instruction is well formed. -/
abbrev Instr.WellFormed (i : Instr) : Prop := i.wf = true

end Sys2Proof
end

