-- ==== Sys2Proof/Decode.lean ====
section
/-! DEFINITION. The opcode pattern matcher, the instruction decoder, and the encoder written from the same tables (rules
R70 to R95, R110 to R124). Decoding is total on every list of bytes and fails by name: with StreamExhausted where bytes
are missing, with UnrecognizedOpcode and the two head bytes where no pattern matches. -/

namespace Sys2Proof

/-- The two failure kinds (rule R210), with what each reports. -/
inductive Failure where
  /-- "fewer bytes available than an instruction requires" (rule R211) -/
  | streamExhausted
  /-- "no pattern matched the instruction head"; the head is b0 ++ b1 (rule R212) -/
  | unrecognizedOpcode (head : Word)
deriving DecidableEq, Repr

/-- One entry of the matcher's ordered table (rule R112). -/
structure Pattern where
  mask : Byte
  expected : Byte
  kind : OuterKind
deriving DecidableEq, Repr

/-- The opcode byte of each jump or loop mnemonic (rule R81). -/
def jccOpcode : Jcc → Byte
  | .jo => 0x70 | .jno => 0x71 | .jb => 0x72 | .jnb => 0x73
  | .jz => 0x74 | .jnz => 0x75 | .jbe => 0x76 | .ja => 0x77
  | .js => 0x78 | .jns => 0x79 | .jp => 0x7A | .jnp => 0x7B
  | .jl => 0x7C | .jnl => 0x7D | .jle => 0x7E | .jg => 0x7F
  | .loopnz => 0xE0 | .loopz => 0xE1 | .loop => 0xE2 | .jcxz => 0xE3

/-- The twenty mnemonics in the order of rule R81. -/
def jccOrder : List Jcc :=
  [.jo, .jno, .jb, .jnb, .jz, .jnz, .jbe, .ja, .js, .jns, .jp, .jnp, .jl, .jnl, .jle, .jg,
   .loopnz, .loopz, .loop, .jcxz]

/-- Entries 1 to 9 of the matcher's table (rule R112, whose values are rule R80's). -/
def dataPatterns : List Pattern :=
  [⟨0xFC, 0x88, .rmReg .mov⟩, ⟨0xF0, 0xB0, .movImmReg⟩,
   ⟨0xFC, 0x00, .rmReg (.alu .add)⟩, ⟨0xFE, 0x04, .immAcc .add⟩,
   ⟨0xFC, 0x28, .rmReg (.alu .sub)⟩, ⟨0xFE, 0x2C, .immAcc .sub⟩,
   ⟨0xFC, 0x38, .rmReg (.alu .cmp)⟩, ⟨0xFE, 0x3C, .immAcc .cmp⟩,
   ⟨0xFC, 0x80, .grpImmRm⟩]

/-- The matcher's whole table in the source's order: entries 1 to 9, then 10 to 29 (rule R112). -/
def patterns : List Pattern :=
  dataPatterns ++ jccOrder.map fun c => ⟨0xFF, jccOpcode c, .jcc c⟩

/-- Whether an entry matches the opcode byte: `b0 & mask == expected` (rule R112). -/
def Pattern.matchesHead (p : Pattern) (b0 : Byte) : Bool := b0 &&& p.mask == p.expected

/-- The matcher's first stage, "first match wins" (rule R112). -/
def matchHead (b0 : Byte) : Option OuterKind :=
  (patterns.find? fun p => p.matchesHead b0).map Pattern.kind

/-- The group's sub-operation code (rules R75, R80, R113). -/
def groupOp (subop : BitVec 3) : Option AluOp :=
  if subop = 0b000#3 then some .add
  else if subop = 0b101#3 then some .sub
  else if subop = 0b111#3 then some .cmp
  else none

/-- The matcher's second stage: only the group form looks at the second byte (rule R113). -/
def resolveKind (k : OuterKind) (b1 : Byte) : Option Kind :=
  match k with
  | .rmReg op => some (.rmReg op)
  | .movImmReg => some .movImmReg
  | .immAcc op => some (.immAcc op)
  | .grpImmRm => (groupOp (Machine.field b1 3 3)).map .grpImmRm
  | .jcc c => some (.jcc c)

/-- `Classify(b0, b1)`; `none` is NoMatch (rules R112 to R114). -/
def classify (b0 b1 : Byte) : Option Kind :=
  match matchHead b0 with
  | some k => resolveKind k b1
  | none => none

/-- The displacement byte count that the second byte of a head gives in formats RM and GI (rule R85). -/
def headDispCount (b1 : Byte) : Nat :=
  Machine.dispCount (Machine.field b1 6 2) (Machine.field b1 0 3)

/-- The data byte count `ni` of a classified head (rules R87, R88). -/
def headDataCount (k : Kind) (b0 : Byte) : Nat :=
  match k with
  | .rmReg _ => 0
  | .movImmReg => Machine.dataCount (Machine.widthOf (Machine.bit b0 3))
  | .immAcc _ => Machine.dataCount (Machine.widthOf (Machine.bit b0 0))
  | .grpImmRm op => Machine.grpDataCount op (Machine.bit b0 1) (Machine.widthOf (Machine.bit b0 0))
  | .jcc _ => 0

/-- The length that a classified head alone gives (rules R90, R91). -/
def headLength (k : Kind) (b0 b1 : Byte) : Nat :=
  match k with
  | .rmReg _ => 2 + headDispCount b1
  | .movImmReg => 1 + headDataCount k b0
  | .immAcc _ => 1 + headDataCount k b0
  | .grpImmRm _ => 2 + headDispCount b1 + headDataCount k b0
  | .jcc _ => 2

/-- The byte at position `a` of an instruction. -/
def byteAtPos (bs : List Byte) (a : Nat) : Byte := bs.getD a 0

/-- The little-endian pair of bytes at positions `a` and `a + 1` of an instruction (rules R53, R55). -/
def pairAtPos (bs : List Byte) (a : Nat) : Word := Machine.le16 (byteAtPos bs a) (byteAtPos bs (a + 1))

/-- The register-or-memory field of an instruction whose second byte is `b1`: its displacement follows at position 2
(rules R82, R84 to R86, R115 to R119). -/
def decodeRmField (b1 : Byte) (bs : List Byte) : RmField :=
  let mod := Machine.field b1 6 2
  let rm := Machine.field b1 0 3
  if mod = 0b11#2 then .reg rm
  else if mod = 0b01#2 then .baseDisp8 rm (byteAtPos bs 2)
  else if mod = 0b10#2 then .baseDisp16 rm (pairAtPos bs 2)
  else if rm = 0b110#3 then .direct (pairAtPos bs 2)
  else .base rm

/-- The `n` data bytes at position `a` (rule R89). -/
def decodeImm (n a : Nat) (bs : List Byte) : Imm :=
  if n = 2 then .imm16 (pairAtPos bs a) else .imm8 (byteAtPos bs a)

/-- The fields of a classified instruction whose bytes are all present (rules R111, R122, steps 3 to 6 of R126). -/
def decodeFields (k : Kind) (b0 b1 : Byte) (bs : List Byte) : Format :=
  match k with
  | .rmReg op =>
    .rm op (Machine.directionOf (Machine.bit b0 1)) (Machine.widthOf (Machine.bit b0 0)) (Machine.field b1 3 3)
      (decodeRmField b1 bs)
  | .movImmReg => .ir (Machine.field b0 0 3) (decodeImm (headDataCount k b0) 1 bs)
  | .immAcc op => .ia op (decodeImm (headDataCount k b0) 1 bs)
  | .grpImmRm op =>
    .gi op (Machine.bit b0 1) (Machine.widthOf (Machine.bit b0 0)) (decodeRmField b1 bs)
      (decodeImm (headDataCount k b0) (2 + headDispCount b1) bs)
  | .jcc c => .j c b1

/-- The instruction that a format RM, GI or J operation stands for (rules R80, R81). -/
def Format.toInstr : Format → Instr
  | .rm .mov d w reg m => .movRmReg d w reg m
  | .rm (.alu .add) d w reg m => .addRmReg d w reg m
  | .rm (.alu .sub) d w reg m => .subRmReg d w reg m
  | .rm (.alu .cmp) d w reg m => .cmpRmReg d w reg m
  | .ir reg imm => .movImmReg reg imm
  | .ia .add imm => .addImmAcc imm
  | .ia .sub imm => .subImmAcc imm
  | .ia .cmp imm => .cmpImmAcc imm
  | .gi .add s w m imm => .addImmRm s w m imm
  | .gi .sub s w m imm => .subImmRm s w m imm
  | .gi .cmp s w m imm => .cmpImmRm s w m imm
  | .j .jo v => .jo v | .j .jno v => .jno v | .j .jb v => .jb v | .j .jnb v => .jnb v
  | .j .jz v => .jz v | .j .jnz v => .jnz v | .j .jbe v => .jbe v | .j .ja v => .ja v
  | .j .js v => .js v | .j .jns v => .jns v | .j .jp v => .jp v | .j .jnp v => .jnp v
  | .j .jl v => .jl v | .j .jnl v => .jnl v | .j .jle v => .jle v | .j .jg v => .jg v
  | .j .loopnz v => .loopnz v | .j .loopz v => .loopz v | .j .loop v => .loop v | .j .jcxz v => .jcxz v

/-- The format and fields of an instruction: the inverse of `Format.toInstr` (rules R80, R81). -/
def Instr.format : Instr → Format
  | .movRmReg d w reg rm => .rm .mov d w reg rm
  | .movImmReg reg imm => .ir reg imm
  | .addRmReg d w reg rm => .rm (.alu .add) d w reg rm
  | .addImmAcc imm => .ia .add imm
  | .subRmReg d w reg rm => .rm (.alu .sub) d w reg rm
  | .subImmAcc imm => .ia .sub imm
  | .cmpRmReg d w reg rm => .rm (.alu .cmp) d w reg rm
  | .cmpImmAcc imm => .ia .cmp imm
  | .addImmRm s w rm imm => .gi .add s w rm imm
  | .subImmRm s w rm imm => .gi .sub s w rm imm
  | .cmpImmRm s w rm imm => .gi .cmp s w rm imm
  | .jo v => .j .jo v | .jno v => .j .jno v | .jb v => .j .jb v | .jnb v => .j .jnb v
  | .jz v => .j .jz v | .jnz v => .j .jnz v | .jbe v => .j .jbe v | .ja v => .j .ja v
  | .js v => .j .js v | .jns v => .j .jns v | .jp v => .j .jp v | .jnp v => .j .jnp v
  | .jl v => .j .jl v | .jnl v => .j .jnl v | .jle v => .j .jle v | .jg v => .j .jg v
  | .loopnz v => .j .loopnz v | .loopz v => .j .loopz v | .loop v => .j .loop v | .jcxz v => .j .jcxz v

/-- The decoder (rules R122 to R124): the instruction at the front of the bytes and the bytes after it. The bytes are
those from `pc` to the end of the stream, so a list that is too short is the end of the stream. The order of the checks
is the priority of rule R213: no head, no pattern, not enough trailing bytes. -/
def decode (bs : List Byte) : Except Failure (Instr × List Byte) :=
  match bs with
  | b0 :: b1 :: _ =>
    match classify b0 b1 with
    | none => .error (.unrecognizedOpcode (Machine.join b0 b1))
    | some k =>
      if bs.length < headLength k b0 b1 then .error .streamExhausted
      else .ok ((decodeFields k b0 b1 bs).toInstr, bs.drop (headLength k b0 b1))
  | _ => .error .streamExhausted

/-! The lengths and the encoder, from the same tables. -/

/-- The length of an instruction in bytes (rule R90). -/
def formatLength : Format → Nat
  | .rm _ _ _ _ rm => 2 + Machine.rmDispCount rm
  | .ir _ imm => 1 + Machine.immCount imm
  | .ia _ imm => 1 + Machine.immCount imm
  | .gi _ _ _ rm imm => 2 + Machine.rmDispCount rm + Machine.immCount imm
  | .j _ _ => 2

/-- The total consumed length `len` of an instruction (rule R90). -/
def Instr.length (i : Instr) : Nat := formatLength i.format

/-- The fixed bits of format RM's opcode byte (rule R80). -/
def rmOp6 : DataOp → BitVec 6
  | .mov => 0b100010#6
  | .alu .add => 0b000000#6
  | .alu .sub => 0b001010#6
  | .alu .cmp => 0b001110#6

/-- The fixed bits of format IA's opcode byte (rule R80). -/
def accOp7 : AluOp → BitVec 7
  | .add => 0b0000010#7
  | .sub => 0b0010110#7
  | .cmp => 0b0011110#7

/-- The group's sub-operation code (rules R75, R80). -/
def groupCode : AluOp → BitVec 3
  | .add => 0b000#3
  | .sub => 0b101#3
  | .cmp => 0b111#3

/-- The displacement bytes of a register-or-memory field, low byte first (rules R55, R86). -/
def dispBytes : RmField → List Byte
  | .reg _ => []
  | .base _ => []
  | .baseDisp8 _ d => [d]
  | .baseDisp16 _ d => [Machine.lowByte d, Machine.highByte d]
  | .direct a => [Machine.lowByte a, Machine.highByte a]

/-- The data bytes of an immediate, low byte first (rule R53). -/
def immBytes : Imm → List Byte
  | .imm8 v => [v]
  | .imm16 v => [Machine.lowByte v, Machine.highByte v]

/-- The second byte of formats RM and GI: mod, the middle field (reg or sub-operation), rm (rules R72, R75). -/
def modByte (rm : RmField) (middle : BitVec 3) : Byte := Machine.modBits rm ++ middle ++ Machine.rmBits rm

/-- The encoding of a format (rules R72 to R76). -/
def encodeFormat : Format → List Byte
  | .rm op d w reg rm =>
    (rmOp6 op ++ Machine.directionBit d ++ Machine.widthBit w : Byte) :: modByte rm reg :: dispBytes rm
  | .ir reg imm => (0b1011#4 ++ Machine.widthBit (Machine.immWidth imm) ++ reg : Byte) :: immBytes imm
  | .ia op imm => (accOp7 op ++ Machine.widthBit (Machine.immWidth imm) : Byte) :: immBytes imm
  | .gi op s w rm imm =>
    (0b100000#6 ++ BitVec.ofBool s ++ Machine.widthBit w : Byte) :: modByte rm (groupCode op) ::
      (dispBytes rm ++ immBytes imm)
  | .j c v => [jccOpcode c, v]

/-- The bytes of an instruction in stream order (rules R70, R123). -/
def encode (i : Instr) : List Byte := encodeFormat i.format

/-- `encode_RM` of rule R94: the two head bytes of format RM from its six fields. -/
def encodeRmHead (op6 : BitVec 6) (d w : BitVec 1) (mod : BitVec 2) (reg rm : BitVec 3) : Byte × Byte :=
  (op6 ++ d ++ w, mod ++ reg ++ rm)

/-- `extract` of rule R94: the six fields of format RM from its two head bytes. -/
def extractRmHead (b0 b1 : Byte) : BitVec 6 × BitVec 1 × BitVec 1 × BitVec 2 × BitVec 3 × BitVec 3 :=
  (Machine.field b0 2 6, Machine.field b0 1 1, Machine.field b0 0 1,
   Machine.field b1 6 2, Machine.field b1 3 3, Machine.field b1 0 3)

/-! Words numbered as spec/opcode_table.json numbers them. -/

/-- DEDUCED (log entry 9), safe: the six bytes of an instruction whose bits are `w`, numbered as the opcode table numbers
them. The table's word is the 16-bit head `b0*256 + b1`, so bits 15:8 are the opcode byte and bits 7:0 the second byte;
the bits from 16 on are the later bytes in stream order. Bits at or above `nbits` are 0. -/
def tableBytes (nbits w : Nat) : List Byte :=
  let v := w % 2 ^ nbits
  if nbits ≤ 8 then [BitVec.ofNat 8 v, 0, 0, 0, 0, 0]
  else
    [BitVec.ofNat 8 (v / 2 ^ 8), BitVec.ofNat 8 v, BitVec.ofNat 8 (v / 2 ^ 16), BitVec.ofNat 8 (v / 2 ^ 24),
     BitVec.ofNat 8 (v / 2 ^ 32), BitVec.ofNat 8 (v / 2 ^ 40)]

/-- The instruction that the decoder reads from a word of the opcode table (log entry 9). -/
def decodeTableWord (nbits w : Nat) : Option Instr :=
  match decode (tableBytes nbits w) with
  | .ok (i, _) => some i
  | .error _ => none

end Sys2Proof
end

