-- ==== Sys2Proof/Machine/State.lean ====
section
/-! DEFINITION. The state of the machine as plain data (rules R20 to R36), the reasons a step could stop, and the state
after reset (rules R35, R230). -/

namespace Sys2Proof.Machine

/-- The instruction stream, the only address space (rule R50): its length `N` and its bytes. The bytes are listed by
offset, in rising order, without those that are `Config.unlistedByte` and without offsets outside the stream
(`Memory.wf`), so every stream is written down in exactly one way. `N` lies between 0 and 65535 (rules R7, R50).
DESIGN CHOICE (log entry 1), safe: the spec makes the stream a parameter of the step; here it is a field of the state
that no step writes. -/
structure Memory where
  length : Word
  cells : List Host.Cell
deriving DecidableEq, Repr

/-- The status latch `STATUS` (rule R30). -/
inductive Status where
  /-- RUN: the core takes steps -/
  | run
  /-- HALT_EXHAUSTED: the last step raised StreamExhausted -/
  | haltExhausted
  /-- HALT_UNRECOGNIZED: the last step raised UnrecognizedOpcode -/
  | haltUnrecognized
deriving DecidableEq, Repr

/-- The machine's state (rule R34: the whole of a step's input). -/
structure State where
  /-- the eight 16-bit registers ax, cx, dx, bx, sp, bp, si, di, by number (rule R20) -/
  x : Vector Word 8
  /-- the instruction pointer (rule R26) -/
  pc : Word
  /-- the zero flag (rule R29) -/
  zf : Bool
  /-- the sign flag (rule R29) -/
  sf : Bool
  /-- the status latch (rule R30) -/
  status : Status
  /-- the error latch (rule R31) -/
  errHead : Word
  /-- the instruction stream and its length (rule R50) -/
  stream : Memory
deriving DecidableEq, Repr

/-- A step never stops with a fault: the two failures of the hardware (rule R210) are state changes that the spec gives
whole (rules R211, R212), so they are next states, and no instruction's execution can fail (rule R210). This type has no
constructor. Log entry 4. -/
inductive Fault where
deriving DecidableEq, Repr

/-- The refusals. -/
inductive Refusal where
  /-- An instruction without a meaning yet, rejected by name in exec's arm (safe). No arm uses it: all 31 instructions
  have their meaning. -/
  | notModelled (mnemonic : String)
deriving DecidableEq, Repr

/-- The stream of a machine to which nothing has been presented: no byte at all. -/
def Memory.empty : Memory := ⟨0, []⟩

/-- The state after reset (rules R35, R230), with no program presented yet (DESIGN CHOICE, log entry 2). -/
def State.reset : State where
  x := Vector.replicate 8 0
  pc := Config.entryPoint
  zf := false
  sf := false
  status := .run
  errHead := 0
  stream := Memory.empty

end Sys2Proof.Machine
end

