-- ==== Sys2Proof/Machine/Ops.lean ====
section
/-! DEFINITION. The named operations over the stream, the registers, the instruction pointer and the latches: the stream
interface (rule R50), the registers and their byte views (rules R20 to R25), the pointer's advance (rule R180), the one
operation that takes a failure (rules R127, R211, R212, R214), and the reset event, which is the only way back from it
(rules R216, R218, R230). -/

namespace Sys2Proof.Machine

/-! ### The instruction stream -/

/-- The number of bytes in the stream, `N` (rule R50). -/
def Memory.size (m : Memory) : Nat := m.length.toNat

/-- What the list of cells gives for an offset, or `Config.unlistedByte`. -/
def lookupCell (a : Nat) : List Host.Cell → Byte
  | [] => Config.unlistedByte
  | (b, v) :: cs => if a = b then v else lookupCell a cs

/-- The stream interface: the byte at an offset, or `none` for "absent" (rules R50, R59). -/
def Memory.byteAt (m : Memory) (a : Nat) : Option Byte :=
  if a < m.size then some (lookupCell a m.cells) else none

/-- Whether the list's offsets rise strictly, starting at or above `lo`, end below `hi`, and no listed byte is
`Config.unlistedByte`. -/
def cellsWf (lo hi : Nat) : List Host.Cell → Bool
  | [] => true
  | (a, v) :: cs => decide (lo ≤ a) && decide (a < hi) && v != Config.unlistedByte && cellsWf (a + 1) hi cs

/-- The canonical form of a stream: equal streams are equal data. -/
def Memory.wf (m : Memory) : Bool := cellsWf 0 m.size m.cells

/-- Put a byte into a rising list of cells, keeping the canonical form: the byte `Config.unlistedByte` removes the cell. -/
def putCell (a : Nat) (v : Byte) : List Host.Cell → List Host.Cell
  | [] => if v = Config.unlistedByte then [] else [(a, v)]
  | (b, u) :: cs =>
    if a < b then if v = Config.unlistedByte then (b, u) :: cs else (a, v) :: (b, u) :: cs
    else if a = b then if v = Config.unlistedByte then cs else (a, v) :: cs
    else (b, u) :: putCell a v cs

/-- The ByteSource presents a byte at an offset of the stream; an offset outside it is left absent. No instruction does
this (rules R52, R62): it is how a stream is presented before a run (rule R232). -/
def Memory.put (m : Memory) (a : Nat) (v : Byte) : Memory :=
  if a < m.size then { m with cells := putCell a v m.cells } else m

/-- The ByteSource presents a stream of at least `n` bytes, as far as 65535 of them (rules R50, R232); the new ones are
zero until they are put. -/
def Memory.grow (m : Memory) (n : Nat) : Memory :=
  if m.size < n then { m with length := BitVec.ofNat 16 (min n 65535) } else m

/-- The bytes of a list presented one after the other from an offset on. -/
def Memory.putList (m : Memory) (a : Nat) : List Byte → Memory
  | [] => m
  | v :: vs => Memory.putList (m.put a v) (a + 1) vs

/-- The stream that holds exactly the bytes of a list (at most 65535 of them, rule R50). -/
def Memory.ofBytes (bs : List Byte) : Memory := (Memory.empty.grow bs.length).putList 0 bs

/-- Up to `n` bytes of the stream from an offset on, fewer where the stream ends first (rules R50, R123). -/
def Memory.bytesFrom (m : Memory) (a : Nat) : Nat → List Byte
  | 0 => []
  | n + 1 =>
    match m.byteAt a with
    | some v => v :: Memory.bytesFrom m (a + 1) n
    | none => []

/-! ### Registers and byte views -/

/-- `x[i]`: the 16-bit register number `i` (rules R9, R20). -/
def State.readReg (s : State) (i : RegField) : Word := s.x[i.toNat]'i.isLt

/-- `x[i] <- v` (rules R9, R20). -/
def State.writeReg (s : State) (i : RegField) (v : Word) : State := { s with x := s.x.set i.toNat v i.isLt }

/-- The number of the register cell that byte view `j` is part of (rule R23). -/
def viewCell (j : RegField) : RegField := j &&& 0b011#3

/-- Whether byte view `j` is the high byte of its cell: ah, ch, dh, bh (rule R23). -/
def viewIsHigh (j : RegField) : Bool := j.getLsbD 2

/-- `r8[j]`: the byte view number `j` (rules R9, R23). -/
def State.readByteReg (s : State) (j : RegField) : Byte :=
  if viewIsHigh j then highByte (s.readReg (viewCell j)) else lowByte (s.readReg (viewCell j))

/-- `r8[j] <- v`: the other byte of the cell keeps its value (rules R9, R24). -/
def State.writeByteReg (s : State) (j : RegField) (v : Byte) : State :=
  if viewIsHigh j then s.writeReg (viewCell j) (join v (lowByte (s.readReg (viewCell j))))
  else s.writeReg (viewCell j) (join (highByte (s.readReg (viewCell j))) v)

/-! ### The instruction pointer and the flags -/

/-- `pc <- target` (rule R9). -/
def State.setPc (s : State) (target : Word) : State := { s with pc := target }

/-- `pc <- pc + len` (rule R180). In a step the sum is at most 65535 (rule R28); see log entry 10. -/
def State.advance (s : State) (len : Nat) : State := s.setPc (s.pc + BitVec.ofNat 16 len)

/-- Write both flags, always together (rule R29). -/
def State.setFlags (s : State) (zf sf : Bool) : State := { s with zf := zf, sf := sf }

/-! ### Taking a failure, and reset -/

/-- What a failure writes into `STATUS` (rules R211, R212). -/
def failureStatus : Failure → Status
  | .streamExhausted => .haltExhausted
  | .unrecognizedOpcode _ => .haltUnrecognized

/-- What a failure writes into `ERR_HEAD` (rules R211, R212). -/
def failureHead : Failure → Word
  | .streamExhausted => 0
  | .unrecognizedOpcode head => head

/-- Taking a failure: `STATUS` and `ERR_HEAD` are written, everything else keeps its value and `pc` stays at the failing
instruction (rules R127, R211, R212, R214). There is no return from it (rule R218): only reset leaves the halted state. -/
def State.raise (s : State) (f : Failure) : State :=
  { s with status := failureStatus f, errHead := failureHead f }

/-- The reset event (rule R230): every piece of state at its reset value. DESIGN CHOICE (log entry 11), safe: the stream,
which is the platform's and not among the state that rule R230 resets, stays as the ByteSource presents it. -/
def State.restart (s : State) : State := { State.reset with stream := s.stream }

/-- The state in which a run of a program starts: reset, with the program's bytes presented by the ByteSource (rules R59,
R232; log entry 2). -/
def State.load (bs : List Byte) : State := { State.reset with stream := Memory.ofBytes bs }

/-- The numeric code of `STATUS` (rule R30). -/
def statusCode : Status → Nat
  | .run => 0
  | .haltExhausted => 1
  | .haltUnrecognized => 2

/-! ### The state read-out -/

/-- What the reporting collaborator reads (rule R36). -/
structure ReadOut where
  registers : Vector Word 8
  zero : Bool
  sign : Bool
  instructionPointer : Word
  status : Nat
  errHead : Word
deriving DecidableEq, Repr

/-- The state read-out, "meaningful only when STATUS is not RUN" (rule R36): nothing is answered while the core runs. -/
def State.readOut (s : State) : Option ReadOut :=
  match s.status with
  | .run => none
  | .haltExhausted | .haltUnrecognized =>
    some ⟨s.x, s.zf, s.sf, s.pc, statusCode s.status, s.errHead⟩

end Sys2Proof.Machine
end

