-- ==== Sys2Proof/Machine/Operands.lean ====
section
/-! DEFINITION. Operands: how the fields of an instruction resolve to them (rules R115 to R121), and how the execution
engine reads and writes them (rules R22, R128, R161, R163). -/

namespace Sys2Proof.Machine

/-- An operand (rules R10, R125). -/
inductive Operand where
  /-- register number `n` at w = 1, byte view number `n` at w = 0 (rule R116) -/
  | register (n : RegField) (w : Width)
  /-- base expression number `rm` with its displacement, a symbol never dereferenced (rules R117, R118) -/
  | effectiveAddress (rm : RegField) (disp : Option Word)
  /-- a 16-bit direct address, never dereferenced (rule R119) -/
  | directAddress (v : Word)
  /-- an immediate value (rule R89) -/
  | immediate (v : Word)
deriving DecidableEq, Repr

/-- `ResolveReg(reg, w)` (rule R120). -/
def resolveReg (reg : RegField) (w : Width) : Operand := .register reg w

/-- `ResolveRM(mod, rm, w, disp)` (rules R116, R117, R119); a one-byte displacement is zero-extended (rule R86). -/
def resolveRm (rm : RmField) (w : Width) : Operand :=
  match rm with
  | .reg r => .register r w
  | .base b => .effectiveAddress b none
  | .baseDisp8 b d => .effectiveAddress b (some (zext16 d))
  | .baseDisp16 b d => .effectiveAddress b (some d)
  | .direct a => .directAddress a

/-- The destination of format RM (rule R121). -/
def rmDest (d : Direction) (w : Width) (reg : RegField) (rm : RmField) : Operand :=
  match d with
  | .toReg => resolveReg reg w
  | .toRm => resolveRm rm w

/-- The source of format RM (rule R121). -/
def rmSource (d : Direction) (w : Width) (reg : RegField) (rm : RmField) : Operand :=
  match d with
  | .toReg => resolveRm rm w
  | .toRm => resolveReg reg w

/-- The accumulator: ax at w = 1, al at w = 0 (rules R74, R121). -/
def accumulator (w : Width) : Operand := .register 0 w

/-- The 16-bit value of an immediate of format IR or IA (rule R89). -/
def plainImmValue : Imm → Word
  | .imm8 v => zext16 v
  | .imm16 v => v

/-- The 16-bit value of an immediate of format GI: one byte used at width 16 is sign-extended iff s = 1 (rule R89). The
last case has no encoding (log entry 10). -/
def groupImmValue (s : Bool) (w : Width) (imm : Imm) : Word :=
  match w, imm with
  | .word, .imm16 v => v
  | .word, .imm8 v => if s then sext16 v else zext16 v
  | .byte, .imm8 v => zext16 v
  | .byte, .imm16 v => zext16 (lowByte v)

/-- Whether an operand is a memory operand (rule R11). -/
def isMemory : Operand → Bool
  | .register _ _ => false
  | .effectiveAddress _ _ => true
  | .directAddress _ => true
  | .immediate _ => false

/-- Whether an instruction with these operands is exec-skipped (rule R128). -/
def execSkipped (dest source : Operand) : Bool := isMemory dest || isMemory source

/-- The value of an operand as an ALU or mov input, 16 bits wide: a byte view is widened with zeros (rule R161). A memory
operand has no value (rule R128). -/
def State.readOperand (s : State) (o : Operand) : Option Word :=
  match o with
  | .register n .word => some (s.readReg n)
  | .register n .byte => some (zext16 (s.readByteReg n))
  | .immediate v => some v
  | .effectiveAddress _ _ => none
  | .directAddress _ => none

/-- Write the w-sized low part of a value to a destination (rules R150, R163). Only registers are ever written: there is
no store (rule R52). -/
def State.writeOperand (s : State) (o : Operand) (v : Word) : State :=
  match o with
  | .register n .word => s.writeReg n v
  | .register n .byte => s.writeByteReg n (lowByte v)
  | .immediate _ => s
  | .effectiveAddress _ _ => s
  | .directAddress _ => s

end Sys2Proof.Machine
end

