-- ==== Sys2Proof/Machine/Flags.lean ====
section
/-! DEFINITION. The ALU and the flag unit (rules R160 to R163), and the three shared executions over them: a move, an
arithmetic operation or comparison, and a fall-through. -/

namespace Sys2Proof.Machine

/-- `ADD(A, B)` and `SUB(A, B)`, modulo 2^16; cmp computes the difference (rule R160). -/
def aluResult (op : AluOp) (a b : Word) : Word :=
  match op with
  | .add => a + b
  | .sub => a - b
  | .cmp => a - b

/-- The zero flag of a 16-bit result (rule R162). -/
def zeroFlag (result : Word) : Bool := result == 0

/-- The sign flag of a 16-bit result: bit 15, at both widths (rule R162). -/
def signFlag (result : Word) : Bool := result.getLsbD 15

/-- Whether the operation writes its destination; cmp does not (rule R163). -/
def writesBack : AluOp → Bool
  | .add => true
  | .sub => true
  | .cmp => false

/-- What step 9 of rule R126 does for a move: the resolved source value goes to the destination (rule R150); nothing
where an operand is a memory operand (rule R128). -/
def State.move (s : State) (dest source : Operand) : State :=
  if execSkipped dest source then s
  else
    match s.readOperand source with
    | some v => s.writeOperand dest v
    | none => s

/-- What step 9 of rule R126 does for add, sub and cmp: both inputs are read first (rule R235), the flags and the
destination are written together (rules R162, R163); nothing where an operand is a memory operand (rule R128). -/
def State.arith (s : State) (op : AluOp) (dest source : Operand) : State :=
  if execSkipped dest source then s
  else
    match s.readOperand dest, s.readOperand source with
    | some a, some b =>
      let result := aluResult op a b
      let flagged := s.setFlags (zeroFlag result) (signFlag result)
      if writesBack op then flagged.writeOperand dest result else flagged
    | _, _ => s

/-- A move and then the pointer's advance (steps 9 and 10 of rule R126). -/
def runMove (dest source : Operand) (len : Nat) (s : State) : Host.Outcome State Fault Refusal :=
  .next ((s.move dest source).advance len)

/-- An add, sub or cmp and then the pointer's advance (steps 9 and 10 of rule R126). -/
def runArith (op : AluOp) (dest source : Operand) (len : Nat) (s : State) : Host.Outcome State Fault Refusal :=
  .next ((s.arith op dest source).advance len)

end Sys2Proof.Machine
end

