-- ==== Sys2Proof/Machine/Alu.lean ====
section
/-! DEFINITION. add, sub and cmp in their three formats (42_add_sub_cmp.md). -/

namespace Sys2Proof.Machine

/-- add r/m, reg and add reg, r/m (rule R164). -/
def execAddRmReg (d : Direction) (w : Width) (reg : RegField) (rm : RmField) (s : State) :
    Host.Outcome State Fault Refusal :=
  runArith .add (rmDest d w reg rm) (rmSource d w reg rm) (Instr.length (.addRmReg d w reg rm)) s

/-- sub r/m, reg and sub reg, r/m (rule R166). -/
def execSubRmReg (d : Direction) (w : Width) (reg : RegField) (rm : RmField) (s : State) :
    Host.Outcome State Fault Refusal :=
  runArith .sub (rmDest d w reg rm) (rmSource d w reg rm) (Instr.length (.subRmReg d w reg rm)) s

/-- cmp r/m, reg and cmp reg, r/m (rule R168). -/
def execCmpRmReg (d : Direction) (w : Width) (reg : RegField) (rm : RmField) (s : State) :
    Host.Outcome State Fault Refusal :=
  runArith .cmp (rmDest d w reg rm) (rmSource d w reg rm) (Instr.length (.cmpRmReg d w reg rm)) s

/-- add ax, imm16 and add al, imm8 (rule R165). -/
def execAddImmAcc (imm : Imm) (s : State) : Host.Outcome State Fault Refusal :=
  runArith .add (accumulator (immWidth imm)) (.immediate (plainImmValue imm)) (Instr.length (.addImmAcc imm)) s

/-- sub ax, imm16 and sub al, imm8 (rule R167). -/
def execSubImmAcc (imm : Imm) (s : State) : Host.Outcome State Fault Refusal :=
  runArith .sub (accumulator (immWidth imm)) (.immediate (plainImmValue imm)) (Instr.length (.subImmAcc imm)) s

/-- cmp ax, imm16 and cmp al, imm8 (rule R169). -/
def execCmpImmAcc (imm : Imm) (s : State) : Host.Outcome State Fault Refusal :=
  runArith .cmp (accumulator (immWidth imm)) (.immediate (plainImmValue imm)) (Instr.length (.cmpImmAcc imm)) s

/-- add r/m, imm (rule R170). -/
def execAddImmRm (s : Bool) (w : Width) (rm : RmField) (imm : Imm) (st : State) : Host.Outcome State Fault Refusal :=
  runArith .add (resolveRm rm w) (.immediate (groupImmValue s w imm)) (Instr.length (.addImmRm s w rm imm)) st

/-- sub r/m, imm (rule R171). -/
def execSubImmRm (s : Bool) (w : Width) (rm : RmField) (imm : Imm) (st : State) : Host.Outcome State Fault Refusal :=
  runArith .sub (resolveRm rm w) (.immediate (groupImmValue s w imm)) (Instr.length (.subImmRm s w rm imm)) st

/-- cmp r/m, imm (rule R172). -/
def execCmpImmRm (s : Bool) (w : Width) (rm : RmField) (imm : Imm) (st : State) : Host.Outcome State Fault Refusal :=
  runArith .cmp (resolveRm rm w) (.immediate (groupImmValue s w imm)) (Instr.length (.cmpImmRm s w rm imm)) st

end Sys2Proof.Machine
end

