-- ==== Sys2Proof/Machine/Jumps.lean ====
section
/-! DEFINITION. The twenty jump and loop instructions (43_jumps.md): jnz, and the nineteen that are recognized but not
wired. -/

namespace Sys2Proof.Machine

/-- A recognized opcode that is not wired: it always falls through; no flag or register is read or written (rule R184).
The loop opcodes do not decrement cx. -/
def fallThrough (len : Nat) (s : State) : Host.Outcome State Fault Refusal := .next (s.advance len)

/-- Whether jnz is taken (rule R181). -/
def jnzTaken (s : State) : Bool := !s.zf

/-- jnz disp8 (rule R181): with ZF = 0 the pointer becomes the unsigned displacement byte, an absolute target (rule
R182). -/
def execJnz (disp : Byte) (s : State) : Host.Outcome State Fault Refusal :=
  if jnzTaken s then .next (s.setPc (zext16 disp)) else fallThrough (Instr.length (.jnz disp)) s

/-- jo disp8, not wired (rule R185). -/
def execJo (disp : Byte) (s : State) : Host.Outcome State Fault Refusal :=
  fallThrough (Instr.length (.jo disp)) s

/-- jno disp8, not wired (rule R186). -/
def execJno (disp : Byte) (s : State) : Host.Outcome State Fault Refusal :=
  fallThrough (Instr.length (.jno disp)) s

/-- jb disp8, not wired (rule R187). -/
def execJb (disp : Byte) (s : State) : Host.Outcome State Fault Refusal :=
  fallThrough (Instr.length (.jb disp)) s

/-- jnb disp8, not wired (rule R188). -/
def execJnb (disp : Byte) (s : State) : Host.Outcome State Fault Refusal :=
  fallThrough (Instr.length (.jnb disp)) s

/-- jz disp8, not wired (rule R189). -/
def execJz (disp : Byte) (s : State) : Host.Outcome State Fault Refusal :=
  fallThrough (Instr.length (.jz disp)) s

/-- jbe disp8, not wired (rule R190). -/
def execJbe (disp : Byte) (s : State) : Host.Outcome State Fault Refusal :=
  fallThrough (Instr.length (.jbe disp)) s

/-- ja disp8, not wired (rule R191). -/
def execJa (disp : Byte) (s : State) : Host.Outcome State Fault Refusal :=
  fallThrough (Instr.length (.ja disp)) s

/-- js disp8, not wired (rule R192). -/
def execJs (disp : Byte) (s : State) : Host.Outcome State Fault Refusal :=
  fallThrough (Instr.length (.js disp)) s

/-- jns disp8, not wired (rule R193). -/
def execJns (disp : Byte) (s : State) : Host.Outcome State Fault Refusal :=
  fallThrough (Instr.length (.jns disp)) s

/-- jp disp8, not wired (rule R194). -/
def execJp (disp : Byte) (s : State) : Host.Outcome State Fault Refusal :=
  fallThrough (Instr.length (.jp disp)) s

/-- jnp disp8, not wired (rule R195). -/
def execJnp (disp : Byte) (s : State) : Host.Outcome State Fault Refusal :=
  fallThrough (Instr.length (.jnp disp)) s

/-- jl disp8, not wired (rule R196). -/
def execJl (disp : Byte) (s : State) : Host.Outcome State Fault Refusal :=
  fallThrough (Instr.length (.jl disp)) s

/-- jnl disp8, not wired (rule R197). -/
def execJnl (disp : Byte) (s : State) : Host.Outcome State Fault Refusal :=
  fallThrough (Instr.length (.jnl disp)) s

/-- jle disp8, not wired (rule R198). -/
def execJle (disp : Byte) (s : State) : Host.Outcome State Fault Refusal :=
  fallThrough (Instr.length (.jle disp)) s

/-- jg disp8, not wired (rule R199). -/
def execJg (disp : Byte) (s : State) : Host.Outcome State Fault Refusal :=
  fallThrough (Instr.length (.jg disp)) s

/-- loopnz disp8, not wired (rule R200). -/
def execLoopnz (disp : Byte) (s : State) : Host.Outcome State Fault Refusal :=
  fallThrough (Instr.length (.loopnz disp)) s

/-- loopz disp8, not wired (rule R201). -/
def execLoopz (disp : Byte) (s : State) : Host.Outcome State Fault Refusal :=
  fallThrough (Instr.length (.loopz disp)) s

/-- loop disp8, not wired (rule R202). -/
def execLoop (disp : Byte) (s : State) : Host.Outcome State Fault Refusal :=
  fallThrough (Instr.length (.loop disp)) s

/-- jcxz disp8, not wired (rule R203). -/
def execJcxz (disp : Byte) (s : State) : Host.Outcome State Fault Refusal :=
  fallThrough (Instr.length (.jcxz disp)) s

end Sys2Proof.Machine
end

