-- ==== Sys2Proof/Machine/Mov.lean ====
section
/-! DEFINITION. The two mov instructions (41_mov.md). -/

namespace Sys2Proof.Machine

/-- mov r/m, reg and mov reg, r/m (rule R150). -/
def execMovRmReg (d : Direction) (w : Width) (reg : RegField) (rm : RmField) (s : State) :
    Host.Outcome State Fault Refusal :=
  runMove (rmDest d w reg rm) (rmSource d w reg rm) (Instr.length (.movRmReg d w reg rm)) s

/-- mov reg, imm (rule R151). -/
def execMovImmReg (reg : RegField) (imm : Imm) (s : State) : Host.Outcome State Fault Refusal :=
  runMove (resolveReg reg (immWidth imm)) (.immediate (plainImmValue imm)) (Instr.length (.movImmReg reg imm)) s

end Sys2Proof.Machine
end

