-- ==== Sys2Proof/Machine/Dispatch.lean ====
section
/-! DEFINITION. One arm per instruction, each one call of its meaning (step 9 and 10 of rule R126). -/

namespace Sys2Proof.Machine

def exec (i : Instr) (s : State) : Host.Outcome State Fault Refusal :=
  match i with
  | .movRmReg d w reg rm => Sys2Proof.Machine.execMovRmReg d w reg rm s
  | .movImmReg reg imm => Sys2Proof.Machine.execMovImmReg reg imm s
  | .addRmReg d w reg rm => Sys2Proof.Machine.execAddRmReg d w reg rm s
  | .addImmAcc imm => Sys2Proof.Machine.execAddImmAcc imm s
  | .subRmReg d w reg rm => Sys2Proof.Machine.execSubRmReg d w reg rm s
  | .subImmAcc imm => Sys2Proof.Machine.execSubImmAcc imm s
  | .cmpRmReg d w reg rm => Sys2Proof.Machine.execCmpRmReg d w reg rm s
  | .cmpImmAcc imm => Sys2Proof.Machine.execCmpImmAcc imm s
  | .addImmRm sign w rm imm => Sys2Proof.Machine.execAddImmRm sign w rm imm s
  | .subImmRm sign w rm imm => Sys2Proof.Machine.execSubImmRm sign w rm imm s
  | .cmpImmRm sign w rm imm => Sys2Proof.Machine.execCmpImmRm sign w rm imm s
  | .jo disp => Sys2Proof.Machine.execJo disp s
  | .jno disp => Sys2Proof.Machine.execJno disp s
  | .jb disp => Sys2Proof.Machine.execJb disp s
  | .jnb disp => Sys2Proof.Machine.execJnb disp s
  | .jz disp => Sys2Proof.Machine.execJz disp s
  | .jnz disp => Sys2Proof.Machine.execJnz disp s
  | .jbe disp => Sys2Proof.Machine.execJbe disp s
  | .ja disp => Sys2Proof.Machine.execJa disp s
  | .js disp => Sys2Proof.Machine.execJs disp s
  | .jns disp => Sys2Proof.Machine.execJns disp s
  | .jp disp => Sys2Proof.Machine.execJp disp s
  | .jnp disp => Sys2Proof.Machine.execJnp disp s
  | .jl disp => Sys2Proof.Machine.execJl disp s
  | .jnl disp => Sys2Proof.Machine.execJnl disp s
  | .jle disp => Sys2Proof.Machine.execJle disp s
  | .jg disp => Sys2Proof.Machine.execJg disp s
  | .loopnz disp => Sys2Proof.Machine.execLoopnz disp s
  | .loopz disp => Sys2Proof.Machine.execLoopz disp s
  | .loop disp => Sys2Proof.Machine.execLoop disp s
  | .jcxz disp => Sys2Proof.Machine.execJcxz disp s

end Sys2Proof.Machine
end

