-- ==== Sys2Proof/Machine/Fetch.lean ====
section
/-! DEFINITION. Fetching an instruction at the instruction pointer (steps 1 to 6 of rule R126), and presenting one there. -/

namespace Sys2Proof.Machine

/-- The bytes the decoder can be shown at `pc`: as many as the longest instruction has, fewer where the stream ends
(rules R50, R70, R123). -/
def State.fetchWindow (s : State) : List Byte :=
  s.stream.bytesFrom s.pc.toNat Config.maxInstructionBytes

/-- The instruction at `pc`, or the failure that the decoder reports (steps 1 to 6 of rule R126). -/
def State.fetch (s : State) : Except Failure Instr :=
  match decode s.fetchWindow with
  | .ok (i, _) => .ok i
  | .error f => .error f

/-- Present bytes where the next fetch reads them, in a stream long enough for them, with the core running: all that a
fetch at `pc` needs (DESIGN CHOICE, log entry 8, safe). -/
def State.presentAtPc (s : State) (bs : List Byte) : State :=
  { s with
    status := .run
    stream := (s.stream.grow (s.pc.toNat + bs.length)).putList s.pc.toNat bs }

end Sys2Proof.Machine
end

