-- ==== Sys2Proof/Machine/Step.lean ====
section
/-! DEFINITION. One step (rule R126): nothing in a halted core, otherwise the instruction at `pc`, or the failure that its
decoding reports. -/

namespace Sys2Proof.Machine

/-- The step function of rule R126. -/
def step (s : State) : Host.Outcome State Fault Refusal :=
  match s.status with
  | .run =>
    match s.fetch with
    | .ok i => exec i s
    | .error f => .next (s.raise f)
  | .haltExhausted => .next s
  | .haltUnrecognized => .next s

/-- The state with the instruction of a word of the opcode table, followed by zero bytes up to six bytes in all,
presented where the next step fetches (log entries 8 and 9). -/
def State.withFetchWord (s : State) (nbits w : Nat) : State := s.presentAtPc (tableBytes nbits w)

end Sys2Proof.Machine
end

