-- ==== Sys2Proof/Laws/State.lean ====
section
/-! SUPPORT. One lemma per field per update of the state, and the reads and writes of registers and byte views. -/

namespace Sys2Proof.Machine

@[simp] theorem State.writeReg_pc (s : State) (i : RegField) (v : Word) : (s.writeReg i v).pc = s.pc := rfl
@[simp] theorem State.writeReg_zf (s : State) (i : RegField) (v : Word) : (s.writeReg i v).zf = s.zf := rfl
@[simp] theorem State.writeReg_sf (s : State) (i : RegField) (v : Word) : (s.writeReg i v).sf = s.sf := rfl
@[simp] theorem State.writeReg_status (s : State) (i : RegField) (v : Word) : (s.writeReg i v).status = s.status := rfl
@[simp] theorem State.writeReg_errHead (s : State) (i : RegField) (v : Word) : (s.writeReg i v).errHead = s.errHead := rfl
@[simp] theorem State.writeReg_stream (s : State) (i : RegField) (v : Word) : (s.writeReg i v).stream = s.stream := rfl

@[simp] theorem State.setPc_x (s : State) (v : Word) : (s.setPc v).x = s.x := rfl
@[simp] theorem State.setPc_zf (s : State) (v : Word) : (s.setPc v).zf = s.zf := rfl
@[simp] theorem State.setPc_sf (s : State) (v : Word) : (s.setPc v).sf = s.sf := rfl
@[simp] theorem State.setPc_status (s : State) (v : Word) : (s.setPc v).status = s.status := rfl
@[simp] theorem State.setPc_errHead (s : State) (v : Word) : (s.setPc v).errHead = s.errHead := rfl
@[simp] theorem State.setPc_stream (s : State) (v : Word) : (s.setPc v).stream = s.stream := rfl

@[simp] theorem State.advance_x (s : State) (n : Nat) : (s.advance n).x = s.x := rfl
@[simp] theorem State.advance_zf (s : State) (n : Nat) : (s.advance n).zf = s.zf := rfl
@[simp] theorem State.advance_sf (s : State) (n : Nat) : (s.advance n).sf = s.sf := rfl
@[simp] theorem State.advance_status (s : State) (n : Nat) : (s.advance n).status = s.status := rfl
@[simp] theorem State.advance_errHead (s : State) (n : Nat) : (s.advance n).errHead = s.errHead := rfl
@[simp] theorem State.advance_stream (s : State) (n : Nat) : (s.advance n).stream = s.stream := rfl

@[simp] theorem State.setFlags_x (s : State) (z f : Bool) : (s.setFlags z f).x = s.x := rfl
@[simp] theorem State.setFlags_pc (s : State) (z f : Bool) : (s.setFlags z f).pc = s.pc := rfl
@[simp] theorem State.setFlags_status (s : State) (z f : Bool) : (s.setFlags z f).status = s.status := rfl
@[simp] theorem State.setFlags_errHead (s : State) (z f : Bool) : (s.setFlags z f).errHead = s.errHead := rfl
@[simp] theorem State.setFlags_stream (s : State) (z f : Bool) : (s.setFlags z f).stream = s.stream := rfl

@[simp] theorem State.raise_x (s : State) (f : Failure) : (s.raise f).x = s.x := rfl
@[simp] theorem State.raise_pc (s : State) (f : Failure) : (s.raise f).pc = s.pc := rfl
@[simp] theorem State.raise_zf (s : State) (f : Failure) : (s.raise f).zf = s.zf := rfl
@[simp] theorem State.raise_sf (s : State) (f : Failure) : (s.raise f).sf = s.sf := rfl
@[simp] theorem State.raise_stream (s : State) (f : Failure) : (s.raise f).stream = s.stream := rfl

@[simp] theorem State.setPc_pc (s : State) (v : Word) : (s.setPc v).pc = v := rfl
@[simp] theorem State.advance_pc (s : State) (n : Nat) : (s.advance n).pc = s.pc + BitVec.ofNat 16 n := rfl
@[simp] theorem State.setFlags_zf (s : State) (z f : Bool) : (s.setFlags z f).zf = z := rfl
@[simp] theorem State.setFlags_sf (s : State) (z f : Bool) : (s.setFlags z f).sf = f := rfl
@[simp] theorem State.raise_status (s : State) (f : Failure) : (s.raise f).status = failureStatus f := rfl
@[simp] theorem State.raise_errHead (s : State) (f : Failure) : (s.raise f).errHead = failureHead f := rfl

@[simp] theorem State.writeByteReg_pc (s : State) (j : RegField) (v : Byte) :
    (s.writeByteReg j v).pc = s.pc := by
  unfold State.writeByteReg; split <;> rfl
@[simp] theorem State.writeByteReg_zf (s : State) (j : RegField) (v : Byte) :
    (s.writeByteReg j v).zf = s.zf := by
  unfold State.writeByteReg; split <;> rfl
@[simp] theorem State.writeByteReg_sf (s : State) (j : RegField) (v : Byte) :
    (s.writeByteReg j v).sf = s.sf := by
  unfold State.writeByteReg; split <;> rfl
@[simp] theorem State.writeByteReg_status (s : State) (j : RegField) (v : Byte) :
    (s.writeByteReg j v).status = s.status := by
  unfold State.writeByteReg; split <;> rfl
@[simp] theorem State.writeByteReg_errHead (s : State) (j : RegField) (v : Byte) :
    (s.writeByteReg j v).errHead = s.errHead := by
  unfold State.writeByteReg; split <;> rfl
@[simp] theorem State.writeByteReg_stream (s : State) (j : RegField) (v : Byte) :
    (s.writeByteReg j v).stream = s.stream := by
  unfold State.writeByteReg; split <;> rfl

/-! ### Reading registers after an update -/

@[simp] theorem State.readReg_setPc (s : State) (v : Word) (r : RegField) : (s.setPc v).readReg r = s.readReg r := rfl
@[simp] theorem State.readReg_advance (s : State) (n : Nat) (r : RegField) :
    (s.advance n).readReg r = s.readReg r := rfl
@[simp] theorem State.readReg_setFlags (s : State) (z f : Bool) (r : RegField) :
    (s.setFlags z f).readReg r = s.readReg r := rfl
@[simp] theorem State.readReg_raise (s : State) (f : Failure) (r : RegField) :
    (s.raise f).readReg r = s.readReg r := rfl
@[simp] theorem State.readByteReg_setPc (s : State) (v : Word) (j : RegField) :
    (s.setPc v).readByteReg j = s.readByteReg j := rfl
@[simp] theorem State.readByteReg_advance (s : State) (n : Nat) (j : RegField) :
    (s.advance n).readByteReg j = s.readByteReg j := rfl
@[simp] theorem State.readByteReg_setFlags (s : State) (z f : Bool) (j : RegField) :
    (s.setFlags z f).readByteReg j = s.readByteReg j := rfl
@[simp] theorem State.readByteReg_raise (s : State) (f : Failure) (j : RegField) :
    (s.raise f).readByteReg j = s.readByteReg j := rfl

/-- A register read after a register write. -/
theorem State.readReg_writeReg (s : State) (i r : RegField) (v : Word) :
    (s.writeReg i v).readReg r = if r = i then v else s.readReg r := by
  unfold State.readReg State.writeReg
  rw [Vector.getElem_set]
  by_cases h : r = i
  · simp [h]
  · have : i.toNat ≠ r.toNat := fun e => h (BitVec.eq_of_toNat_eq e.symm)
    simp [h, this]

@[simp] theorem State.readReg_writeReg_same (s : State) (i : RegField) (v : Word) :
    (s.writeReg i v).readReg i = v := by simp [State.readReg_writeReg]

theorem State.readReg_writeReg_other (s : State) {i r : RegField} (v : Word) (h : r ≠ i) :
    (s.writeReg i v).readReg r = s.readReg r := by simp [State.readReg_writeReg, h]

/-- Two states with the same reading of every register have the same registers. -/
theorem State.x_ext {s t : State} (h : ∀ r, s.readReg r = t.readReg r) : s.x = t.x := by
  apply Vector.ext
  intro i hi
  simpa [State.readReg, Nat.mod_eq_of_lt hi] using h (BitVec.ofNat 3 i)

/-! ### The halves of a 16-bit value -/

theorem join_toNat (h l : Byte) : (join h l).toNat = h.toNat * 256 + l.toNat := by
  unfold join
  have := l.isLt
  simp only [BitVec.toNat_append]
  rw [← Nat.shiftLeft_add_eq_or_of_lt (by omega), Nat.shiftLeft_eq]

theorem lowByte_toNat (v : Word) : (lowByte v).toNat = v.toNat % 256 := by
  simp [lowByte]

theorem highByte_toNat (v : Word) : (highByte v).toNat = v.toNat / 256 := by
  have := v.isLt
  simp [highByte, Nat.shiftRight_eq_div_pow]
  omega

theorem zext16_toNat (b : Byte) : (zext16 b).toNat = b.toNat := by
  have := b.isLt
  simp [zext16]
  omega

@[simp] theorem lowByte_join (h l : Byte) : lowByte (join h l) = l := by
  apply BitVec.eq_of_toNat_eq
  have := l.isLt
  rw [lowByte_toNat, join_toNat]
  omega

@[simp] theorem highByte_join (h l : Byte) : highByte (join h l) = h := by
  apply BitVec.eq_of_toNat_eq
  have := l.isLt
  rw [highByte_toNat, join_toNat]
  omega

@[simp] theorem join_high_low (v : Word) : join (highByte v) (lowByte v) = v := by
  apply BitVec.eq_of_toNat_eq
  rw [join_toNat, highByte_toNat, lowByte_toNat]
  omega

@[simp] theorem lowByte_zext16 (b : Byte) : lowByte (zext16 b) = b := by
  apply BitVec.eq_of_toNat_eq
  have := b.isLt
  rw [lowByte_toNat, zext16_toNat]
  omega

/-! ### Byte views -/

/-- Views of one cell are the same view or the two halves (rule R23). -/
theorem view_eq_iff (i j : RegField) : i = j ↔ viewCell i = viewCell j ∧ viewIsHigh i = viewIsHigh j := by
  revert i j; decide

/-- A byte view write seen from the 16-bit cells (rule R24). -/
theorem State.readReg_writeByteReg (s : State) (j r : RegField) (v : Byte) :
    (s.writeByteReg j v).readReg r =
      if r = viewCell j then
        if viewIsHigh j then join v (lowByte (s.readReg r)) else join (highByte (s.readReg r)) v
      else s.readReg r := by
  unfold State.writeByteReg
  split <;> rw [State.readReg_writeReg] <;> split <;> simp_all

/-- A byte view read after a byte view write. -/
theorem State.readByteReg_writeByteReg (s : State) (i j : RegField) (v : Byte) :
    (s.writeByteReg i v).readByteReg j = if j = i then v else s.readByteReg j := by
  unfold State.readByteReg
  rw [State.readReg_writeByteReg]
  by_cases hc : viewCell j = viewCell i
  · by_cases hj : viewIsHigh j = true <;> by_cases hi : viewIsHigh i = true <;> simp [hc, hj, hi, view_eq_iff]
  · simp [hc, view_eq_iff]

/-- A register without byte views is not touched by a byte view write (rule R23). -/
theorem State.readReg_writeByteReg_upper (s : State) (j r : RegField) (v : Byte) (h : 4 ≤ r.toNat) :
    (s.writeByteReg j v).readReg r = s.readReg r := by
  rw [State.readReg_writeByteReg, if_neg]
  revert h; revert r j; decide

end Sys2Proof.Machine
end

