-- ==== Sys2Proof/Laws/Decode.lean ====
section
/-! SUPPORT. What the decoder can answer, said once, and the two views of an instruction. -/

namespace Sys2Proof

@[simp] theorem Instr.toInstr_format (i : Instr) : i.format.toInstr = i := by cases i <;> rfl

@[simp] theorem Format.format_toInstr (f : Format) : f.toInstr.format = f := by
  cases f with
  | rm op d w reg m =>
    cases op with
    | mov => rfl
    | alu op => cases op <;> rfl
  | ir reg imm => rfl
  | ia op imm => cases op <;> rfl
  | gi op s w m imm => cases op <;> rfl
  | j c v => cases c <;> rfl

/-- The decoder on a list with a head (rules R112 to R124). -/
theorem decode_cons_cons (b0 b1 : Byte) (tl : List Byte) :
    decode (b0 :: b1 :: tl) =
      match classify b0 b1 with
      | none => .error (.unrecognizedOpcode (Machine.join b0 b1))
      | some k =>
        if (b0 :: b1 :: tl).length < headLength k b0 b1 then .error .streamExhausted
        else .ok ((decodeFields k b0 b1 (b0 :: b1 :: tl)).toInstr, (b0 :: b1 :: tl).drop (headLength k b0 b1)) := rfl

/-- The decoder on a list with no whole head (rule R124). -/
theorem decode_short {bs : List Byte} (h : bs.length < 2) : decode bs = .error .streamExhausted := by
  match bs, h with
  | [], _ => rfl
  | [_], _ => rfl

/-- Everything that a successful decoding says about the bytes. -/
theorem decode_ok_cases {bs rest : List Byte} {i : Instr} (h : decode bs = .ok (i, rest)) :
    ∃ b0 b1 tl k, bs = b0 :: b1 :: tl ∧ classify b0 b1 = some k ∧ headLength k b0 b1 ≤ bs.length ∧
      i = (decodeFields k b0 b1 bs).toInstr ∧ rest = bs.drop (headLength k b0 b1) := by
  match bs, h with
  | b0 :: b1 :: tl, h =>
    rw [decode_cons_cons] at h
    split at h
    · cases h
    · next k hk =>
      split at h
      · cases h
      · next hl =>
        cases h
        exact ⟨b0, b1, tl, k, rfl, hk, Nat.le_of_not_lt hl, rfl, rfl⟩

/-- Everything that a failing decoding says about the bytes (rule R213). -/
theorem decode_error_cases {bs : List Byte} {f : Failure} (h : decode bs = .error f) :
    (bs.length < 2 ∧ f = .streamExhausted) ∨
    (∃ b0 b1 tl, bs = b0 :: b1 :: tl ∧ classify b0 b1 = none ∧ f = .unrecognizedOpcode (Machine.join b0 b1)) ∨
    (∃ b0 b1 tl k, bs = b0 :: b1 :: tl ∧ classify b0 b1 = some k ∧ bs.length < headLength k b0 b1 ∧
      f = .streamExhausted) := by
  match bs, h with
  | [], h => cases h; exact .inl ⟨by simp, rfl⟩
  | [_], h => cases h; exact .inl ⟨by simp, rfl⟩
  | b0 :: b1 :: tl, h =>
    rw [decode_cons_cons] at h
    split at h
    · next hk => cases h; exact .inr (.inl ⟨b0, b1, tl, rfl, hk, rfl⟩)
    · next k hk =>
      split at h
      · next hl => cases h; exact .inr (.inr ⟨b0, b1, tl, k, rfl, hk, hl, rfl⟩)
      · cases h

/-- The encoded length of a register-or-memory field's displacement (rule R85). -/
theorem dispBytes_length_of_wf {f : RmField} (h : f.wf = true) :
    (dispBytes f).length = Machine.rmDispCount f := by
  cases f with
  | reg r => simp [dispBytes, Machine.rmDispCount, Machine.dispCount, Machine.modBits]
  | base b =>
    have hb : b ≠ 0b110#3 := by simpa [RmField.wf] using h
    simp [dispBytes, Machine.rmDispCount, Machine.dispCount, Machine.modBits, Machine.rmBits, hb]
  | baseDisp8 b d => rfl
  | baseDisp16 b d => rfl
  | direct a => rfl

theorem immBytes_length (imm : Imm) : (immBytes imm).length = Machine.immCount imm := by cases imm <;> rfl

/-- A displacement has at most two bytes (rule R85). -/
theorem rmDispCount_le (f : RmField) : Machine.rmDispCount f ≤ 2 := by
  unfold Machine.rmDispCount Machine.dispCount
  split <;> [omega; split <;> [omega; split <;> omega]]

theorem immCount_pos (imm : Imm) : 1 ≤ Machine.immCount imm ∧ Machine.immCount imm ≤ 2 := by
  cases imm <;> simp [Machine.immCount]

end Sys2Proof
end

