-- ==== Sys2Proof/Laws/Memory.lean ====
section
/-! SUPPORT. The stream: reading after a byte is put, and the canonical form, which every operation keeps. -/

namespace Sys2Proof.Machine

/-- A canonical list stays canonical under a lower bound. -/
theorem cellsWf_weaken {lo lo' hi hi' : Nat} {cs : List Host.Cell} (h : cellsWf lo hi cs = true) (hl : lo' ≤ lo)
    (hh : hi ≤ hi') : cellsWf lo' hi' cs = true := by
  induction cs generalizing lo lo' with
  | nil => rfl
  | cons c cs ih =>
    simp only [cellsWf, Bool.and_eq_true, decide_eq_true_eq] at h ⊢
    exact ⟨⟨⟨by omega, by omega⟩, h.1.2⟩, ih h.2 (Nat.le_refl _)⟩

/-- In a canonical list an offset below the bound is not listed. -/
theorem lookupCell_below {lo hi a : Nat} {cs : List Host.Cell} (h : cellsWf lo hi cs = true) (ha : a < lo) :
    lookupCell a cs = Config.unlistedByte := by
  induction cs generalizing lo with
  | nil => rfl
  | cons c cs ih =>
    simp only [cellsWf, Bool.and_eq_true, decide_eq_true_eq] at h
    rw [lookupCell, if_neg (by omega)]
    exact ih h.2 (by omega)

/-- Putting a byte keeps the canonical form. -/
theorem cellsWf_putCell {lo hi a : Nat} {v : Byte} {cs : List Host.Cell} (h : cellsWf lo hi cs = true)
    (hl : lo ≤ a) (hh : a < hi) : cellsWf lo hi (putCell a v cs) = true := by
  induction cs generalizing lo with
  | nil => by_cases hv : v = Config.unlistedByte <;> simp [putCell, cellsWf, hv, hl, hh]
  | cons c cs ih =>
    simp only [cellsWf, Bool.and_eq_true, decide_eq_true_eq, bne_iff_ne] at h
    obtain ⟨⟨⟨h1, h2⟩, h3⟩, h4⟩ := h
    by_cases hv : v = Config.unlistedByte <;> rcases Nat.lt_trichotomy a c.1 with hc | hc | hc
    · simp [putCell, cellsWf, hv, hc, h1, h2, h3, h4]
    · simp [putCell, hv, hc, cellsWf_weaken h4 (by omega : lo ≤ c.1 + 1) (Nat.le_refl _)]
    · simp [putCell, cellsWf, Nat.not_lt.2 (Nat.le_of_lt hc), (Nat.ne_of_lt hc).symm, h1, h2, h3, ih h4 hc]
    · simp [putCell, cellsWf, hv, hc, hl, hh, h2, h3, h4, Nat.succ_le_of_lt hc]
    · subst hc; simp [putCell, cellsWf, hv, hl, hh, h4]
    · simp [putCell, cellsWf, Nat.not_lt.2 (Nat.le_of_lt hc), (Nat.ne_of_lt hc).symm, h1, h2, h3, ih h4 hc]

/-- A byte read after a byte is put. -/
theorem lookupCell_putCell {lo hi a b : Nat} {v : Byte} {cs : List Host.Cell} (h : cellsWf lo hi cs = true) :
    lookupCell b (putCell a v cs) = if b = a then v else lookupCell b cs := by
  induction cs generalizing lo with
  | nil =>
    by_cases hv : v = Config.unlistedByte <;> by_cases hb : b = a <;> simp [putCell, lookupCell, hv, hb]
  | cons c cs ih =>
    simp only [cellsWf, Bool.and_eq_true, decide_eq_true_eq] at h
    have below : ∀ e, e ≤ c.1 → lookupCell e cs = Config.unlistedByte := fun e he =>
      lookupCell_below h.2 (by omega)
    rcases Nat.lt_trichotomy a c.1 with hc | hc | hc
    · by_cases hv : v = Config.unlistedByte <;> by_cases hb : b = a
      · subst hb; simp [putCell, lookupCell, hv, hc, (Nat.ne_of_lt hc), below b (Nat.le_of_lt hc)]
      · simp [putCell, lookupCell, hv, hc, hb]
      · subst hb; simp [putCell, lookupCell, hv, hc]
      · simp [putCell, lookupCell, hv, hc, hb]
    · subst hc
      by_cases hv : v = Config.unlistedByte <;> by_cases hb : b = c.1
      · subst hb; simp [putCell, hv, below c.1 (Nat.le_refl _)]
      · simp [putCell, lookupCell, hv, hb]
      · subst hb; simp [putCell, lookupCell, hv]
      · simp [putCell, lookupCell, hv, hb]
    · have hne : a ≠ c.1 := (Nat.ne_of_lt hc).symm
      by_cases hb : b = c.1
      · simp [putCell, lookupCell, Nat.not_lt.2 (Nat.le_of_lt hc), hne, hb, hne.symm]
      · simp [putCell, lookupCell, Nat.not_lt.2 (Nat.le_of_lt hc), hne, hb, ih h.2]

@[simp] theorem Memory.put_size (m : Memory) (a : Nat) (v : Byte) : (m.put a v).size = m.size := by
  unfold Memory.put; split <;> rfl

/-- The empty stream is canonical. -/
theorem Memory.empty_wf : Memory.empty.wf = true := rfl

/-- Presenting a byte keeps the canonical form. -/
theorem Memory.put_wf {m : Memory} (h : m.wf = true) (a : Nat) (v : Byte) : (m.put a v).wf = true := by
  unfold Memory.put
  split
  · next ha => exact cellsWf_putCell h (Nat.zero_le a) ha
  · exact h

/-- What a byte put into a canonical stream does to every read. -/
theorem Memory.byteAt_put {m : Memory} (h : m.wf = true) (a b : Nat) (v : Byte) :
    (m.put a v).byteAt b = if b = a ∧ b < m.size then some v else m.byteAt b := by
  unfold Memory.byteAt
  rw [Memory.put_size]
  unfold Memory.put
  by_cases hb : b < m.size
  · by_cases ha : a < m.size
    · simp only [ha, if_true, hb, and_true, lookupCell_putCell h]
      split <;> rfl
    · have : b ≠ a := fun e => ha (e ▸ hb)
      simp [ha, hb, this]
  · simp [hb]

/-- A stream grows to the length asked for, as far as 65535 bytes, and never shrinks. -/
theorem Memory.grow_size (m : Memory) (n : Nat) : (m.grow n).size = max m.size (min n 65535) := by
  have := m.length.isLt
  unfold Memory.grow Memory.size
  split
  · simp only [BitVec.toNat_ofNat]; omega
  · omega

/-- Growing keeps the canonical form. -/
theorem Memory.grow_wf {m : Memory} (h : m.wf = true) (n : Nat) : (m.grow n).wf = true := by
  have hs := Memory.grow_size m n
  unfold Memory.wf
  have hc : (m.grow n).cells = m.cells := by unfold Memory.grow; split <;> rfl
  rw [hc]
  exact cellsWf_weaken h (Nat.le_refl 0) (by omega)

@[simp] theorem Memory.putList_size (m : Memory) (a : Nat) (vs : List Byte) : (m.putList a vs).size = m.size := by
  induction vs generalizing m a with
  | nil => rfl
  | cons v vs ih => rw [Memory.putList, ih, Memory.put_size]

/-- Presenting bytes keeps the canonical form. -/
theorem Memory.putList_wf {m : Memory} (h : m.wf = true) (a : Nat) (vs : List Byte) :
    (m.putList a vs).wf = true := by
  induction vs generalizing m a with
  | nil => exact h
  | cons v vs ih => exact ih (Memory.put_wf h a v) (a + 1)

/-- A presented stream is canonical. -/
theorem Memory.ofBytes_wf (bs : List Byte) : (Memory.ofBytes bs).wf = true :=
  Memory.putList_wf (Memory.grow_wf Memory.empty_wf _) 0 bs

/-- A byte is present exactly below the stream's length. -/
theorem Memory.byteAt_isSome (m : Memory) (a : Nat) : (m.byteAt a).isSome = decide (a < m.size) := by
  unfold Memory.byteAt; split <;> simp_all

/-- The bytes read from an offset on are those of the stream there, as many as it has. -/
theorem Memory.bytesFrom_getElem? (m : Memory) (a n k : Nat) :
    (m.bytesFrom a n)[k]? = if k < n then m.byteAt (a + k) else none := by
  induction n generalizing a k with
  | zero => simp [Memory.bytesFrom]
  | succ n ih =>
    unfold Memory.bytesFrom
    cases hb : m.byteAt a with
    | some v =>
      cases k with
      | zero => simp [hb]
      | succ k => simp [ih, Nat.add_assoc, Nat.add_comm 1 k]
    | none =>
      have hge : ¬ a < m.size := by
        have := Memory.byteAt_isSome m a
        simpa [hb] using this
      have : m.byteAt (a + k) = none := by unfold Memory.byteAt; rw [if_neg]; omega
      simp [this]

/-- How many bytes are read from an offset on. -/
theorem Memory.bytesFrom_length (m : Memory) (a n : Nat) : (m.bytesFrom a n).length = min n (m.size - a) := by
  induction n generalizing a with
  | zero => simp [Memory.bytesFrom]
  | succ n ih =>
    unfold Memory.bytesFrom
    have := Memory.byteAt_isSome m a
    cases hb : m.byteAt a with
    | some v =>
      have ha : a < m.size := by simpa [hb] using this
      simp only [List.length_cons, ih]
      omega
    | none =>
      have ha : ¬ a < m.size := by simpa [hb] using this
      simp only [List.length_nil]
      omega

end Sys2Proof.Machine
end

