-- ==== Sys2Proof/Machine/Record.lean ====
section
/-! DEFINITION. The decoded-instruction record that a step emits when it does not fail (rules R34, R125). It is an output
beside the step, not state (log entry 7). -/

namespace Sys2Proof.Machine

/-- A mnemonic (rule R125): mov, add, sub, cmp or one of the twenty of rule R81. -/
inductive Mnemonic where
  | data (op : DataOp)
  | jump (c : Jcc)
deriving DecidableEq, Repr

/-- The record of rule R125, field by field. -/
structure Record where
  ip : Word
  kind : OuterKind
  subop : Option AluOp
  mnemonic : Mnemonic
  wide : Bool
  sign : Bool
  direction : Bool
  mode : Option AddressingMode
  reg : RegField
  rm : RegField
  nd : Nat
  ni : Nat
  len : Nat
  dest : Option Operand
  source : Operand
  skipped : Bool
  taken : Bool
deriving DecidableEq, Repr

/-- The `wide` field of a width (rule R77). -/
def isWide : Width → Bool
  | .byte => false
  | .word => true

/-- The `direction` field (rule R78). -/
def isToReg : Direction → Bool
  | .toRm => false
  | .toReg => true

/-- The kind of the first stage that a format belongs to (rules R80, R112). -/
def formatKind : Format → OuterKind
  | .rm op _ _ _ _ => .rmReg op
  | .ir _ _ => .movImmReg
  | .ia op _ => .immAcc op
  | .gi _ _ _ _ _ => .grpImmRm
  | .j c _ => .jcc c

/-- The mnemonic of a format (rules R80, R81). -/
def formatMnemonic : Format → Mnemonic
  | .rm op _ _ _ _ => .data op
  | .ir _ _ => .data .mov
  | .ia op _ => .data (.alu op)
  | .gi op _ _ _ _ => .data (.alu op)
  | .j c _ => .jump c

/-- The destination (rule R121). -/
def formatDest : Format → Option Operand
  | .rm _ d w reg rm => some (rmDest d w reg rm)
  | .ir reg imm => some (resolveReg reg (immWidth imm))
  | .ia _ imm => some (accumulator (immWidth imm))
  | .gi _ _ w rm _ => some (resolveRm rm w)
  | .j _ _ => none

/-- The source (rule R121). -/
def formatSource : Format → Operand
  | .rm _ d w reg rm => rmSource d w reg rm
  | .ir _ imm => .immediate (plainImmValue imm)
  | .ia _ imm => .immediate (plainImmValue imm)
  | .gi _ s w _ imm => .immediate (groupImmValue s w imm)
  | .j _ v => .immediate (zext16 v)

/-- Whether an instruction with this destination and source is exec-skipped (rule R128). -/
def recordSkipped (dest : Option Operand) (source : Operand) : Bool :=
  match dest with
  | some d => execSkipped d source
  | none => isMemory source

/-- The record of an instruction that starts at `s.pc` (rule R125); fields that the format lacks take the defaults of rule
R125. -/
def recordOf (i : Instr) (s : State) : Record :=
  let f := i.format
  { ip := s.pc
    kind := formatKind f
    subop := match f with
      | .gi op _ _ _ _ => some op
      | .rm _ _ _ _ _ | .ir _ _ | .ia _ _ | .j _ _ => none
    mnemonic := formatMnemonic f
    wide := match f with
      | .rm _ _ w _ _ => isWide w
      | .ir _ imm => isWide (immWidth imm)
      | .ia _ imm => isWide (immWidth imm)
      | .gi _ _ w _ _ => isWide w
      | .j _ _ => false
    sign := match f with
      | .gi _ s _ _ _ => s
      | .rm _ _ _ _ _ | .ir _ _ | .ia _ _ | .j _ _ => false
    direction := match f with
      | .rm _ d _ _ _ => isToReg d
      | .ir _ _ | .ia _ _ | .gi _ _ _ _ _ | .j _ _ => false
    mode := match f with
      | .rm _ _ _ _ rm => some (modeOf rm)
      | .gi _ _ _ rm _ => some (modeOf rm)
      | .ir _ _ | .ia _ _ | .j _ _ => none
    reg := match f with
      | .rm _ _ _ reg _ => reg
      | .ir reg _ => reg
      | .ia _ _ | .gi _ _ _ _ _ | .j _ _ => 0
    rm := match f with
      | .rm _ _ _ _ rm => rmBits rm
      | .gi _ _ _ rm _ => rmBits rm
      | .ir _ _ | .ia _ _ | .j _ _ => 0
    nd := match f with
      | .rm _ _ _ _ rm => rmDispCount rm
      | .gi _ _ _ rm _ => rmDispCount rm
      | .ir _ _ | .ia _ _ | .j _ _ => 0
    ni := match f with
      | .ir _ imm => immCount imm
      | .ia _ imm => immCount imm
      | .gi _ _ _ _ imm => immCount imm
      | .rm _ _ _ _ _ | .j _ _ => 0
    len := i.length
    dest := formatDest f
    source := formatSource f
    skipped := recordSkipped (formatDest f) (formatSource f)
    taken := match f with
      | .j .jnz _ => jnzTaken s
      | .rm _ _ _ _ _ | .ir _ _ | .ia _ _ | .gi _ _ _ _ _ | .j _ _ => false }

/-- The record that the step from `s` emits: none where the core is halted or the step fails (rules R126, R127, R216). -/
def stepRecord (s : State) : Option Record :=
  match s.status with
  | .run =>
    match s.fetch with
    | .ok i => some (recordOf i s)
    | .error _ => none
  | .haltExhausted => none
  | .haltUnrecognized => none

end Sys2Proof.Machine
end

