-- ==== Sys2Proof/Laws/Ops.lean ====
section
/-! SUPPORT. For each shared operation, once, everything it can do; then the same of `exec` and of `step`. -/

namespace Sys2Proof.Machine

/-! ### Operands -/

/-- A memory operand has no value, every other operand has one (rule R128). -/
theorem State.readOperand_eq_none_iff (s : State) (o : Operand) : s.readOperand o = none ↔ isMemory o = true := by
  cases o with
  | register n w => cases w <;> simp [State.readOperand, isMemory]
  | effectiveAddress rm d => simp [State.readOperand, isMemory]
  | directAddress v => simp [State.readOperand, isMemory]
  | immediate v => simp [State.readOperand, isMemory]

@[simp] theorem State.readOperand_word (s : State) (n : RegField) :
    s.readOperand (.register n .word) = some (s.readReg n) := rfl
@[simp] theorem State.readOperand_byte (s : State) (n : RegField) :
    s.readOperand (.register n .byte) = some (zext16 (s.readByteReg n)) := rfl
@[simp] theorem State.readOperand_immediate (s : State) (v : Word) : s.readOperand (.immediate v) = some v := rfl

@[simp] theorem State.writeOperand_word (s : State) (n : RegField) (v : Word) :
    s.writeOperand (.register n .word) v = s.writeReg n v := rfl
@[simp] theorem State.writeOperand_byte (s : State) (n : RegField) (v : Word) :
    s.writeOperand (.register n .byte) v = s.writeByteReg n (lowByte v) := rfl

/-- Writing an operand changes registers alone. -/
theorem State.writeOperand_frame (s : State) (o : Operand) (v : Word) :
    (s.writeOperand o v).pc = s.pc ∧ (s.writeOperand o v).zf = s.zf ∧ (s.writeOperand o v).sf = s.sf ∧
    (s.writeOperand o v).status = s.status ∧ (s.writeOperand o v).errHead = s.errHead ∧
    (s.writeOperand o v).stream = s.stream := by
  cases o with
  | register n w => cases w <;> simp
  | effectiveAddress rm d => simp [State.writeOperand]
  | directAddress a => simp [State.writeOperand]
  | immediate a => simp [State.writeOperand]

/-! ### Moves and arithmetic -/

/-- Everything a move can do: nothing where an operand is in memory, otherwise the source's value is written. -/
theorem State.move_cases (s : State) (dest source : Operand) :
    (execSkipped dest source = true ∧ s.move dest source = s) ∨
    (execSkipped dest source = false ∧
      ∃ v, s.readOperand source = some v ∧ s.move dest source = s.writeOperand dest v) := by
  unfold State.move
  cases hs : execSkipped dest source with
  | true => exact .inl ⟨rfl, rfl⟩
  | false =>
    cases hv : s.readOperand source with
    | none =>
      have := (s.readOperand_eq_none_iff source).1 hv
      simp [execSkipped, this] at hs
    | some v => exact .inr ⟨rfl, v, rfl, rfl⟩

/-- Everything an add, sub or cmp can do: nothing where an operand is in memory, otherwise the flags and, but for cmp,
the destination are written. -/
theorem State.arith_cases (s : State) (op : AluOp) (dest source : Operand) :
    (execSkipped dest source = true ∧ s.arith op dest source = s) ∨
    (execSkipped dest source = false ∧
      ∃ a b, s.readOperand dest = some a ∧ s.readOperand source = some b ∧
        s.arith op dest source =
          (let flagged := s.setFlags (zeroFlag (aluResult op a b)) (signFlag (aluResult op a b))
           if writesBack op then flagged.writeOperand dest (aluResult op a b) else flagged)) := by
  unfold State.arith
  cases hs : execSkipped dest source with
  | true => exact .inl ⟨rfl, rfl⟩
  | false =>
    simp only [execSkipped, Bool.or_eq_false_iff] at hs
    cases ha : s.readOperand dest with
    | none => simp [(s.readOperand_eq_none_iff dest).1 ha] at hs
    | some a =>
      cases hb : s.readOperand source with
      | none => simp [(s.readOperand_eq_none_iff source).1 hb] at hs
      | some b => exact .inr ⟨rfl, a, b, rfl, rfl, rfl⟩

/-- A move changes registers alone. -/
theorem State.move_frame (s : State) (dest source : Operand) :
    (s.move dest source).pc = s.pc ∧ (s.move dest source).zf = s.zf ∧ (s.move dest source).sf = s.sf ∧
    (s.move dest source).status = s.status ∧ (s.move dest source).errHead = s.errHead ∧
    (s.move dest source).stream = s.stream := by
  rcases s.move_cases dest source with ⟨_, h⟩ | ⟨_, v, _, h⟩
  · simp [h]
  · rw [h]; exact s.writeOperand_frame dest v

/-- An add, sub or cmp changes registers and flags alone. -/
theorem State.arith_frame (s : State) (op : AluOp) (dest source : Operand) :
    (s.arith op dest source).pc = s.pc ∧ (s.arith op dest source).status = s.status ∧
    (s.arith op dest source).errHead = s.errHead ∧ (s.arith op dest source).stream = s.stream := by
  rcases s.arith_cases op dest source with ⟨_, h⟩ | ⟨_, a, b, _, _, h⟩
  · simp [h]
  · have hf := State.writeOperand_frame
      (s.setFlags (zeroFlag (aluResult op a b)) (signFlag (aluResult op a b))) dest (aluResult op a b)
    rw [h]
    cases writesBack op
    · simp
    · simpa using ⟨hf.1, hf.2.2.2.1, hf.2.2.2.2.1, hf.2.2.2.2.2⟩

/-! ### Every instruction, and a step -/

/-- The four shapes that the meaning of an instruction has. -/
theorem exec_shape (i : Instr) (s : State) :
    (∃ dest source, exec i s = runMove dest source i.length s) ∨
    (∃ op dest source, exec i s = runArith op dest source i.length s) ∨
    exec i s = fallThrough i.length s ∨
    (∃ v, i = .jnz v ∧ jnzTaken s = true ∧ exec i s = .next (s.setPc (zext16 v))) := by
  cases i with
  | jnz v =>
    cases h : jnzTaken s with
    | true => exact .inr (.inr (.inr ⟨v, rfl, rfl, by simp [exec, execJnz, h]⟩))
    | false => exact .inr (.inr (.inl (by simp [exec, execJnz, h])))
  | movRmReg d w reg rm => exact .inl ⟨_, _, rfl⟩
  | movImmReg reg imm => exact .inl ⟨_, _, rfl⟩
  | addRmReg d w reg rm => exact .inr (.inl ⟨_, _, _, rfl⟩)
  | addImmAcc imm => exact .inr (.inl ⟨_, _, _, rfl⟩)
  | subRmReg d w reg rm => exact .inr (.inl ⟨_, _, _, rfl⟩)
  | subImmAcc imm => exact .inr (.inl ⟨_, _, _, rfl⟩)
  | cmpRmReg d w reg rm => exact .inr (.inl ⟨_, _, _, rfl⟩)
  | cmpImmAcc imm => exact .inr (.inl ⟨_, _, _, rfl⟩)
  | addImmRm b w rm imm => exact .inr (.inl ⟨_, _, _, rfl⟩)
  | subImmRm b w rm imm => exact .inr (.inl ⟨_, _, _, rfl⟩)
  | cmpImmRm b w rm imm => exact .inr (.inl ⟨_, _, _, rfl⟩)
  | _ => exact .inr (.inr (.inl rfl))

/-- What a fetch answers is what the decoder answers on the bytes at `pc`. -/
theorem State.fetch_ok_iff (s : State) (i : Instr) :
    s.fetch = .ok i ↔ ∃ rest, decode s.fetchWindow = .ok (i, rest) := by
  unfold State.fetch
  cases h : decode s.fetchWindow with
  | error f => simp
  | ok p => obtain ⟨j, rest⟩ := p; simp

theorem State.fetch_error_iff (s : State) (f : Failure) :
    s.fetch = .error f ↔ decode s.fetchWindow = .error f := by
  unfold State.fetch
  cases h : decode s.fetchWindow with
  | error g => simp
  | ok p => obtain ⟨j, rest⟩ := p; simp

/-- Everything a step can do (rule R126). -/
theorem step_cases {s t : State} (h : step s = .next t) :
    (s.status ≠ .run ∧ t = s) ∨
    (s.status = .run ∧ ∃ f, s.fetch = .error f ∧ t = s.raise f) ∨
    (s.status = .run ∧ ∃ i, s.fetch = .ok i ∧ exec i s = .next t) := by
  unfold step at h
  cases hs : s.status with
  | run =>
    simp only [hs] at h
    cases hf : s.fetch with
    | error f => simp only [hf] at h; cases h; exact .inr (.inl ⟨rfl, f, rfl, rfl⟩)
    | ok i => simp only [hf] at h; exact .inr (.inr ⟨rfl, i, rfl, h⟩)
  | haltExhausted => simp only [hs] at h; cases h; exact .inl ⟨by simp, rfl⟩
  | haltUnrecognized => simp only [hs] at h; cases h; exact .inl ⟨by simp, rfl⟩

end Sys2Proof.Machine
end

