-- ==== Sys2Proof/Machine/Text.lean ====
section
/-! DEFINITION. The text of an instruction as a function of its record (rules R96 to R99, R125): a reference rendering for
the external consumer, not state and not an output of the hardware (rule R4 (f)). -/

namespace Sys2Proof.Machine

/-- A value in unsigned decimal without leading zeros (rules R97, R98). -/
def decimal (v : Word) : String := Nat.repr v.toNat

/-- The names of the 16-bit registers (rule R20). -/
def wordRegName (n : RegField) : String :=
  ["ax", "cx", "dx", "bx", "sp", "bp", "si", "di"].getD n.toNat ""

/-- The names of the byte views (rule R23). -/
def byteRegName (n : RegField) : String :=
  ["al", "cl", "dl", "bl", "ah", "ch", "dh", "bh"].getD n.toNat ""

/-- The base expressions, without their brackets (rule R84). -/
def baseText (rm : RegField) : String :=
  ["bx+si", "bx+di", "bp+si", "bp+di", "si", "di", "bp", "bx"].getD rm.toNat ""

/-- An operand; a displacement of zero is not shown (rule R97). -/
def operandText : Operand → String
  | .register n .word => wordRegName n
  | .register n .byte => byteRegName n
  | .immediate v => decimal v
  | .effectiveAddress rm none => "[" ++ baseText rm ++ "]"
  | .effectiveAddress rm (some d) =>
    if d = 0 then "[" ++ baseText rm ++ "]" else "[" ++ baseText rm ++ "+" ++ decimal d ++ "]"
  | .directAddress v => "[" ++ decimal v ++ "]"

/-- The mnemonics of rule R81, lower case. -/
def jccText : Jcc → String
  | .jo => "jo" | .jno => "jno" | .jb => "jb" | .jnb => "jnb" | .jz => "jz" | .jnz => "jnz"
  | .jbe => "jbe" | .ja => "ja" | .js => "js" | .jns => "jns" | .jp => "jp" | .jnp => "jnp"
  | .jl => "jl" | .jnl => "jnl" | .jle => "jle" | .jg => "jg"
  | .loopnz => "loopnz" | .loopz => "loopz" | .loop => "loop" | .jcxz => "jcxz"

/-- A mnemonic, lower case (rule R96). -/
def mnemonicText : Mnemonic → String
  | .data .mov => "mov"
  | .data (.alu .add) => "add"
  | .data (.alu .sub) => "sub"
  | .data (.alu .cmp) => "cmp"
  | .jump c => jccText c

/-- The text of a record: mnemonic, destination, comma, source (rule R96); a jump has its value alone (rule R98). -/
def recordText (r : Record) : String :=
  match r.dest with
  | some d => mnemonicText r.mnemonic ++ " " ++ operandText d ++ ", " ++ operandText r.source
  | none => mnemonicText r.mnemonic ++ " " ++ operandText r.source

end Sys2Proof.Machine
end

