-- ==== Sys2Proof/Safety.lean ====
section
/-! DEFINITION. The terms in which claims about runs are made: reachability, the end of a run and its reading (rules R129,
R217), the invariant of the machine, and the words for what a step leaves unchanged. -/

namespace Sys2Proof.Machine

/-- The core is halted: the status latch is not RUN (rule R11). -/
def Halted (s : State) : Prop := s.status ≠ .run

/-- The states of the runs that start in `s` (rule R129). -/
inductive Reaches (s : State) : State → Prop where
  | start : Reaches s s
  | step {t u : State} : Reaches s t → step t = .next u → Reaches s u

/-- The four readings of an end state (rule R217). -/
inductive EndReading where
  /-- HALT_EXHAUSTED with pc = N: the last instruction ended exactly at the end of the stream -/
  | cleanEnd
  /-- HALT_EXHAUSTED with pc < N: the instruction at pc needs more bytes than remain -/
  | truncated
  /-- HALT_EXHAUSTED with pc > N: a taken jnz went past the end of the stream -/
  | jumpedPastEnd
  /-- HALT_UNRECOGNIZED: the head at pc matches no pattern -/
  | unrecognized
deriving DecidableEq, Repr

/-- The reading of a state as the end of a run; `none` while the core runs (rule R217). -/
def endReading (s : State) : Option EndReading :=
  match s.status with
  | .run => none
  | .haltExhausted =>
    if s.pc.toNat = s.stream.size then some .cleanEnd
    else if s.pc.toNat < s.stream.size then some .truncated
    else some .jumpedPastEnd
  | .haltUnrecognized => some .unrecognized

/-- The latches say how the run stands: nothing is latched while the core runs, and a halted core has latched the failure
that its `pc` gives (rules R30, R31, R211, R212, R217). -/
def LatchesAgree (s : State) : Prop :=
  match s.status with
  | .run => s.errHead = 0
  | .haltExhausted => s.errHead = 0 ∧ s.fetch = .error .streamExhausted
  | .haltUnrecognized => s.fetch = .error (.unrecognizedOpcode s.errHead)

/-- The pointer is inside the stream, at its end, or at a target of jnz (rules R28, R181, R217). -/
def PcInRange (s : State) : Prop := s.pc.toNat ≤ s.stream.size ∨ s.pc.toNat ≤ 255

/-- The machine's invariant: the stream is in its canonical form, the pointer is in range, the latches agree with it. -/
def Inv (s : State) : Prop := s.stream.wf = true ∧ PcInRange s ∧ LatchesAgree s

/-! ### What a step leaves unchanged -/

/-- The latches and every byte of the stream, present or absent, are as before. -/
def KeepsRest (s t : State) : Prop :=
  t.status = s.status ∧ t.errHead = s.errHead ∧ t.stream.length = s.stream.length ∧
    ∀ a, t.stream.byteAt a = s.stream.byteAt a

/-- Both flags are as before. -/
def KeepsFlags (s t : State) : Prop := t.zf = s.zf ∧ t.sf = s.sf

/-- Every register is as before. -/
def KeepsRegs (s t : State) : Prop := ∀ r, t.readReg r = s.readReg r

/-- Every register but number `n` is as before. -/
def KeepsRegsBut (n : RegField) (s t : State) : Prop := ∀ r, r ≠ n → t.readReg r = s.readReg r

/-- Every byte view but number `j` is as before, and so is every register without byte views (sp, bp, si, di). -/
def KeepsViewsBut (j : RegField) (s t : State) : Prop :=
  (∀ i, i ≠ j → t.readByteReg i = s.readByteReg i) ∧ ∀ r : RegField, 4 ≤ r.toNat → t.readReg r = s.readReg r

/-- At w = 1: register number `n` holds `v` and every other register is as before. -/
def WordWritten (n : RegField) (v : Word) (s t : State) : Prop := t.readReg n = v ∧ KeepsRegsBut n s t

/-- At w = 0: byte view number `j` holds `v`, every other byte view and every register without views is as before. -/
def ByteWritten (j : RegField) (v : Byte) (s t : State) : Prop := t.readByteReg j = v ∧ KeepsViewsBut j s t

/-- The number in format RM that names the destination, both operands being registers (rule R78). -/
def destNumber (d : Direction) (reg r : RegField) : RegField :=
  match d with
  | .toReg => reg
  | .toRm => r

/-- The number in format RM that names the source, both operands being registers (rule R78). -/
def sourceNumber (d : Direction) (reg r : RegField) : RegField :=
  match d with
  | .toReg => r
  | .toRm => reg

/-- The pointer is `n` bytes further on. -/
def AdvancesBy (n : Nat) (s t : State) : Prop := t.pc = s.pc + BitVec.ofNat 16 n

/-- Both flags are those of a 16-bit result (rule R162): zero, and bit 15. -/
def FlagsOf (result : Word) (t : State) : Prop :=
  (t.zf = true ↔ result = 0) ∧ (t.sf = true ↔ 2 ^ 15 ≤ result.toNat)

end Sys2Proof.Machine
end

