-- ==== Sys2Proof/Reference.lean ====
section
/-! DEFINITION. Rule R126 a second time, flat and over numbers: the bytes at `pc` are taken apart by division, the opcode is
looked up by the ranges of rules R80 and R81, and registers are read and written as numbers. It shares with the model
only the state and the reading of one byte and of one register. It exists to be proved equal to `step`. -/

namespace Sys2Proof.Reference

open Sys2Proof.Machine

/-- `MemRead(a, 1)` as a number (rule R9). -/
def mem1 (s : State) (a : Nat) : Nat :=
  match s.stream.byteAt a with
  | some b => b.toNat
  | none => 0

/-- `MemRead(a, 2)` as a number, little-endian (rule R9). -/
def mem2 (s : State) (a : Nat) : Nat := mem1 s a + 256 * mem1 s (a + 1)

/-- `x[i]` as a number. -/
def reg16 (s : State) (i : Nat) : Nat := (s.readReg (BitVec.ofNat 3 i)).toNat

/-- `x[i] <- v`. -/
def setReg16 (s : State) (i v : Nat) : State := s.writeReg (BitVec.ofNat 3 i) (BitVec.ofNat 16 v)

/-- A register operand of width `w` as a 16-bit number (rules R23, R161). -/
def readNum (s : State) (w i : Nat) : Nat :=
  if w = 1 then reg16 s i else if i < 4 then reg16 s i % 256 else reg16 s (i - 4) / 256

/-- Write the low `w`-sized part of a number to a register operand (rules R24, R163). -/
def writeNum (s : State) (w i v : Nat) : State :=
  if w = 1 then setReg16 s i v
  else if i < 4 then setReg16 s i (reg16 s i / 256 * 256 + v % 256)
  else setReg16 s (i - 4) (v % 256 * 256 + reg16 s (i - 4) % 256)

/-- Both flags from a 16-bit result (rule R162). -/
def flagNum (s : State) (r : Nat) : State := { s with zf := decide (r = 0), sf := decide (32768 ≤ r) }

/-- mov, add, sub and cmp on a register destination (rules R150, R151, R160 to R163). -/
def apply (s : State) (op : DataOp) (w dest v : Nat) : State :=
  let sum := (readNum s w dest + v) % 65536
  let diff := (readNum s w dest + 65536 - v) % 65536
  match op with
  | .mov => writeNum s w dest v
  | .alu .add => writeNum (flagNum s sum) w dest sum
  | .alu .sub => writeNum (flagNum s diff) w dest diff
  | .alu .cmp => flagNum s diff

/-- The displacement count from the second byte (rule R85). -/
def nd (b1 : Nat) : Nat :=
  let mod := b1 / 64
  if mod = 1 then 1 else if mod = 2 then 2 else if mod = 0 ∧ b1 % 8 = 6 then 2 else 0

/-- The operation of the format RM opcodes (rule R80). -/
def rmOp (b0 : Nat) : Option DataOp :=
  if 0x88 ≤ b0 ∧ b0 ≤ 0x8B then some .mov
  else if b0 ≤ 0x03 then some (.alu .add)
  else if 0x28 ≤ b0 ∧ b0 ≤ 0x2B then some (.alu .sub)
  else if 0x38 ≤ b0 ∧ b0 ≤ 0x3B then some (.alu .cmp)
  else none

/-- The operation of the format IA opcodes (rule R80). -/
def accOp (b0 : Nat) : Option DataOp :=
  if b0 = 0x04 ∨ b0 = 0x05 then some (.alu .add)
  else if b0 = 0x2C ∨ b0 = 0x2D then some (.alu .sub)
  else if b0 = 0x3C ∨ b0 = 0x3D then some (.alu .cmp)
  else none

/-- The operation of the group, from the second byte (rules R80, R113). -/
def groupOpOf (b0 b1 : Nat) : Option DataOp :=
  if 0x80 ≤ b0 ∧ b0 ≤ 0x83 then
    if b1 / 8 % 8 = 0 then some (.alu .add)
    else if b1 / 8 % 8 = 5 then some (.alu .sub)
    else if b1 / 8 % 8 = 7 then some (.alu .cmp)
    else none
  else none

/-- The data byte count of the group (rule R88). -/
def groupNi (op : DataOp) (b0 : Nat) : Nat :=
  if (op = .alu .cmp ∧ b0 = 0x83) ∨ (op ≠ .alu .cmp ∧ b0 = 0x81) then 2 else 1

/-- The length that the head gives, `none` for an unrecognized head (rules R90 to R92). -/
def lengthOf (b0 b1 : Nat) : Option Nat :=
  match rmOp b0, accOp b0, groupOpOf b0 b1 with
  | some _, _, _ => some (2 + nd b1)
  | none, some _, _ => some (2 + b0 % 2)
  | none, none, some op => some (2 + nd b1 + groupNi op b0)
  | none, none, none =>
    if 0xB0 ≤ b0 ∧ b0 ≤ 0xB7 then some 2
    else if 0xB8 ≤ b0 ∧ b0 ≤ 0xBF then some 3
    else if (0x70 ≤ b0 ∧ b0 ≤ 0x7F) ∨ (0xE0 ≤ b0 ∧ b0 ≤ 0xE3) then some 2
    else none

/-- Step 9 of rule R126: what the instruction at `pc` with head `b0`, `b1` does to registers and flags. -/
def effect (s : State) (b0 b1 : Nat) : State :=
  let pc := s.pc.toNat
  let w := b0 % 2
  let reg := b1 / 8 % 8
  let rm := b1 % 8
  match rmOp b0, accOp b0, groupOpOf b0 b1 with
  | some op, _, _ =>
    if b1 / 64 ≠ 3 then s
    else if b0 / 2 % 2 = 1 then apply s op w reg (readNum s w rm)
    else apply s op w rm (readNum s w reg)
  | none, some op, _ => apply s op w 0 (if w = 1 then mem2 s (pc + 1) else mem1 s (pc + 1))
  | none, none, some op =>
    let a := pc + 2 + nd b1
    let v := mem1 s a
    let imm :=
      if w = 0 then v
      else if groupNi op b0 = 2 then mem2 s a
      else if b0 / 2 % 2 = 1 ∧ 128 ≤ v then v + 0xFF00
      else v
    if b1 / 64 ≠ 3 then s else apply s op w rm imm
  | none, none, none =>
    if 0xB0 ≤ b0 ∧ b0 ≤ 0xB7 then apply s .mov 0 (b0 % 8) (mem1 s (pc + 1))
    else if 0xB8 ≤ b0 ∧ b0 ≤ 0xBF then apply s .mov 1 (b0 % 8) (mem2 s (pc + 1))
    else s

/-- The step function of rule R126, as it reads there. -/
def referenceStep (s : State) : State :=
  let pc := s.pc.toNat
  let n := s.stream.size
  let b0 := mem1 s pc
  let b1 := mem1 s (pc + 1)
  let exhausted : State := { s with status := .haltExhausted, errHead := 0 }
  if s.status ≠ .run then s
  else if n < pc + 2 then exhausted
  else
    match lengthOf b0 b1 with
    | none => { s with status := .haltUnrecognized, errHead := BitVec.ofNat 16 (256 * b0 + b1) }
    | some len =>
      if n < pc + len then exhausted
      else if b0 = 0x75 ∧ s.zf = false then { effect s b0 b1 with pc := BitVec.ofNat 16 b1 }
      else { effect s b0 b1 with pc := BitVec.ofNat 16 (pc + len) }

end Sys2Proof.Reference
end

