-- ==== Sys2Proof/Certificates/Slice0/Obligations.lean ====
section
/-! DEFINITION. The statements for the provers. A docstring names the rules of spec/ a statement formalises and, where a
clause rests on a decision that the spec marks as its own (92_eei_decisions.md) or on a choice of the model, says so with the
decision's or the log entry's number. -/

open Sys2Proof Sys2Proof.Machine

/-- Decode after encode is the identity on well-formed instructions, every operand at every value (rules R70 to R95).
It rests on the opcode values that the spec supplies itself (decisions D1 to D5; log entry 13). -/
def Obligations.DecodeOfEncode : Prop :=
  ∀ (i : Instr) (rest : List Byte), i.WellFormed → decode (encode i ++ rest) = .ok (i, rest)

/-- Encode after decode is the identity on the bytes consumed (rules R70 to R95, R123). It rests on the opcode values
of decisions D1 to D5 (log entry 13). -/
def Obligations.EncodeOfDecode : Prop :=
  ∀ (bs rest : List Byte) (i : Instr), decode bs = .ok (i, rest) → i.WellFormed ∧ encode i ++ rest = bs

/-- Rule R94, whole: the layout as a number, and both round trips. -/
def Obligations.RmHeadReencodes : Prop :=
  (∀ (op6 : BitVec 6) (d w : BitVec 1) (mod : BitVec 2) (reg rm : BitVec 3),
    (encodeRmHead op6 d w mod reg rm).1.toNat = op6.toNat * 4 + d.toNat * 2 + w.toNat ∧
    (encodeRmHead op6 d w mod reg rm).2.toNat = mod.toNat * 64 + reg.toNat * 8 + rm.toNat ∧
    extractRmHead (encodeRmHead op6 d w mod reg rm).1 (encodeRmHead op6 d w mod reg rm).2 = (op6, d, w, mod, reg, rm)) ∧
  ∀ (b0 b1 : Byte),
    encodeRmHead (extractRmHead b0 b1).1 (extractRmHead b0 b1).2.1 (extractRmHead b0 b1).2.2.1
      (extractRmHead b0 b1).2.2.2.1 (extractRmHead b0 b1).2.2.2.2.1 (extractRmHead b0 b1).2.2.2.2.2 = (b0, b1)

/-- Rule R85: the table, where the bytes stand, and the formats without them. The places of mod and rm in b1 and the
codes 01 and 10 are decision D2 (rules R72, R75, R82; log entry 13); that a two-byte displacement and a direct
address are little-endian is rule R55, decision D11 (log entry 12). -/
def Obligations.DisplacementCounts : Prop :=
  (∀ rm, Machine.dispCount 0b11#2 rm = 0) ∧
  (∀ rm, rm ≠ 0b110#3 → Machine.dispCount 0b00#2 rm = 0) ∧
  Machine.dispCount 0b00#2 0b110#3 = 2 ∧
  (∀ rm, Machine.dispCount 0b01#2 rm = 1) ∧
  (∀ rm, Machine.dispCount 0b10#2 rm = 2) ∧
  (∀ (b1 : Byte) (bs : List Byte), let rm := b1.extractLsb' 0 3
    (b1.extractLsb' 6 2 = 0b01#2 → decodeRmField b1 bs = .baseDisp8 rm (bs.getD 2 0)) ∧
    (b1.extractLsb' 6 2 = 0b10#2 → decodeRmField b1 bs = .baseDisp16 rm (Machine.le16 (bs.getD 2 0) (bs.getD 3 0))) ∧
    (b1.extractLsb' 6 2 = 0b00#2 → rm = 0b110#3 →
      decodeRmField b1 bs = .direct (Machine.le16 (bs.getD 2 0) (bs.getD 3 0)))) ∧
  ∀ (s : State) (reg : RegField) (imm : Imm) (op : AluOp) (c : Jcc) (v : Byte),
    (recordOf (.movImmReg reg imm) s).nd = 0 ∧ (recordOf (Format.ia op imm).toInstr s).nd = 0 ∧
      (recordOf (Format.j c v).toInstr s).nd = 0

/-- Rule R88: the count, and where the data bytes stand. That s is bit 1 and w is bit 0 of b0 is rule R75, decision D2
(log entry 13); the byte order is rule R53. -/
def Obligations.GroupDataCounts : Prop :=
  (∀ (op : AluOp) (s : Bool) (w : Width),
    (Machine.grpDataCount op s w = 2 ↔
      (op = .cmp ∧ s = true ∧ w = .word) ∨ ((op = .add ∨ op = .sub) ∧ s = false ∧ w = .word)) ∧
    (Machine.grpDataCount op s w ≠ 2 → Machine.grpDataCount op s w = 1)) ∧
  ∀ (op : AluOp) (b0 b1 : Byte) (bs : List Byte), ∃ s w rm imm,
    decodeFields (.grpImmRm op) b0 b1 bs = .gi op s w rm imm ∧ s = b0.getLsbD 1 ∧ (w = .word ↔ b0.getLsbD 0 = true) ∧
      (Machine.grpDataCount op s w = 1 → imm = .imm8 (bs.getD (2 + headDispCount b1) 0)) ∧
      (Machine.grpDataCount op s w = 2 → ∃ v, imm = .imm16 v ∧
        v.toNat = (bs.getD (2 + headDispCount b1) 0).toNat + 256 * (bs.getD (2 + headDispCount b1 + 1) 0).toNat)

/-- Rule R92 (a) and (b). The opcode values are the spec's own (decisions D1, D5) and so is (b) (decision D18); log
entry 13. -/
def Obligations.HeadRecognition : Prop :=
  ∀ (b0 b1 : Byte), classify b0 b1 = none ↔
    ¬ (b0.toNat ≤ 0x05 ∨ (0x28 ≤ b0.toNat ∧ b0.toNat ≤ 0x2D) ∨ (0x38 ≤ b0.toNat ∧ b0.toNat ≤ 0x3D) ∨
      (0x70 ≤ b0.toNat ∧ b0.toNat ≤ 0x7F) ∨ (0x80 ≤ b0.toNat ∧ b0.toNat ≤ 0x83) ∨
      (0x88 ≤ b0.toNat ∧ b0.toNat ≤ 0x8B) ∨ (0xB0 ≤ b0.toNat ∧ b0.toNat ≤ 0xBF) ∨
      (0xE0 ≤ b0.toNat ∧ b0.toNat ≤ 0xE3)) ∨
    ((0x80 ≤ b0.toNat ∧ b0.toNat ≤ 0x83) ∧ b1.toNat / 8 % 8 ≠ 0 ∧ b1.toNat / 8 % 8 ≠ 5 ∧ b1.toNat / 8 % 8 ≠ 7)

/-- Rule R95 with the opcode values of decisions D1 and D5 (log entry 13). -/
def Obligations.PatternsExclusive : Prop :=
  patterns.length = 29 ∧ ∀ b0 : Byte, (patterns.filter fun p => p.matchesHead b0).length ≤ 1

/-- Rules R70, R90, R91 (itself derived in the spec) and R123: the head tells the length, and exactly that many bytes
are consumed. -/
def Obligations.DecodeConsumesHeadLength : Prop :=
  ∀ (bs rest : List Byte) (i : Instr), decode bs = .ok (i, rest) →
    ∃ b0 b1 k, bs[0]? = some b0 ∧ bs[1]? = some b1 ∧ classify b0 b1 = some k ∧
      i.length = headLength k b0 b1 ∧ 2 ≤ i.length ∧ i.length ≤ 6 ∧
      bs.length = i.length + rest.length ∧ bs.drop i.length = rest

/-- Rule R116. The places of mod and rm in b1 are rules R72 and R75, decision D2 (log entry 13); the byte views are
decision D6 (log entry 5). -/
def Obligations.RegisterModeResolves : Prop :=
  (∀ (b1 : Byte) (bs : List Byte) (w : Width), b1.extractLsb' 6 2 = 0b11#2 →
    resolveRm (decodeRmField b1 bs) w = .register (b1.extractLsb' 0 3) w ∧ headDispCount b1 = 0) ∧
  ([0, 1, 2, 3, 4, 5, 6, 7].map fun n => operandText (.register n .word)) =
    ["ax", "cx", "dx", "bx", "sp", "bp", "si", "di"] ∧
  ([0, 1, 2, 3, 4, 5, 6, 7].map fun n => operandText (.register n .byte)) =
    ["al", "cl", "dl", "bl", "ah", "ch", "dh", "bh"]

/-- The source's three examples and seven derived vectors of 95_test_vectors.md, as whole decodings. -/
def Obligations.KnownBytesDecode : Prop :=
  decode [0xB8, 0x05, 0x00] = .ok (.movImmReg 0 (.imm16 5), []) ∧
  decode [0x83, 0xF9, 0x0A, 0x00] = .ok (.cmpImmRm true .word (.reg 1) (.imm16 10), []) ∧
  decode [0x81, 0xF9, 0x0A, 0x75] = .ok (.cmpImmRm false .word (.reg 1) (.imm8 10), [0x75]) ∧
  decode [0x75, 0xFE] = .ok (.jnz 254, []) ∧
  decode [0x89, 0xD9] = .ok (.movRmReg .toRm .word 3 (.reg 1), []) ∧
  decode [0x8B, 0xCB] = .ok (.movRmReg .toReg .word 1 (.reg 3), []) ∧
  decode [0x8B, 0x50, 0x04] = .ok (.movRmReg .toReg .word 2 (.baseDisp8 0 4), []) ∧
  decode [0x05, 0xE8, 0x03] = .ok (.addImmAcc (.imm16 1000), []) ∧
  decode [0x81, 0x06, 0x34, 0x12, 0xE8, 0x03] = .ok (.addImmRm false .word (.direct 4660) (.imm16 1000), []) ∧
  decode [0xE0, 0x05] = .ok (.loopnz 5, [])

/-- Rule R35's table for State.reset and for the reset event of rule R230. The two latches are the spec's decision
D16; that the reset event keeps the stream is the model's choice (log entry 11). -/
def Obligations.ResetValues : Prop :=
  ∀ s : State, (∀ t, t = State.reset ∨ t = s.restart →
      (∀ r, t.readReg r = 0) ∧ (∀ j, t.readByteReg j = 0) ∧ t.pc = 0 ∧ t.zf = false ∧ t.sf = false ∧
        t.status = .run ∧ statusCode t.status = 0 ∧ t.errHead = 0) ∧ s.restart.stream = s.stream

/-- Rules R23 and R24, which are the spec's decision D6 (log entry 5). -/
def Obligations.ByteViewsAreHalves : Prop :=
  ∀ (s : State) (j : RegField) (v : Byte),
    (j.toNat < 4 →
      (s.readByteReg j).toNat = (s.readReg j).toNat % 256 ∧
      ((s.writeByteReg j v).readReg j).toNat = (s.readReg j).toNat / 256 * 256 + v.toNat ∧
      KeepsRegsBut j s (s.writeByteReg j v)) ∧
    (4 ≤ j.toNat →
      (s.readByteReg j).toNat = (s.readReg (j - 4)).toNat / 256 ∧
      ((s.writeByteReg j v).readReg (j - 4)).toNat = v.toNat * 256 + (s.readReg (j - 4)).toNat % 256 ∧
      KeepsRegsBut (j - 4) s (s.writeByteReg j v))

/-- Rules R50 and R59 for the model's representation of a stream (DESIGN CHOICE, log entries 1 and 3). -/
def Obligations.PresentedStreamReads : Prop :=
  ∀ bs : List Byte, bs.length ≤ 65535 →
    (Memory.ofBytes bs).size = bs.length ∧ ∀ a, (Memory.ofBytes bs).byteAt a = bs[a]?

/-- The model's own representation (DESIGN CHOICE, log entry 3): equal streams are equal states. -/
def Obligations.CanonicalStreamsEqual : Prop :=
  ∀ m m' : Memory, m.wf = true → m'.wf = true → (∀ a, m.byteAt a = m'.byteAt a) → m = m'

/-- Rule R36 with the codes of rule R30 (the spec's decisions D16, D17). R36 calls the read-out meaningful only when
STATUS is not RUN; that it then answers nothing is the model's choice (DEDUCED, log entry 7). -/
def Obligations.ReadOutOfEndState : Prop :=
  ∀ s : State,
    (s.status = .run → s.readOut = none) ∧
    (s.status = .haltExhausted → s.readOut = some ⟨s.x, s.zf, s.sf, s.pc, 1, s.errHead⟩) ∧
    (s.status = .haltUnrecognized → s.readOut = some ⟨s.x, s.zf, s.sf, s.pc, 2, s.errHead⟩)

/-- Rule R126, steps 1 to 10; that the fetch is at pc is the spec's decision D13. -/
def Obligations.StepRunsDecodedInstruction : Prop :=
  ∀ (s : State) (i : Instr) (rest : List Byte), s.status = .run →
    decode (s.stream.bytesFrom s.pc.toNat 6) = .ok (i, rest) → i.WellFormed →
    step s = exec i s ∧ stepRecord s = some (recordOf i s)

/-- Rule R126 from the stream's bytes themselves; the encodings rest on decisions D1 to D5, the fetch at pc on D13. -/
def Obligations.StepRunsEncodedInstruction : Prop :=
  ∀ (s : State) (i : Instr), s.status = .run → i.WellFormed →
    (∀ k, k < (encode i).length → s.stream.byteAt (s.pc.toNat + k) = (encode i)[k]?) →
    step s = exec i s ∧ stepRecord s = some (recordOf i s)

/-- Rules R124, R127, R211 and the first place of R213; what a failing step writes is the spec's decisions D15 and D16
(log entry 4). -/
def Obligations.HeadBeyondStreamExhausts : Prop :=
  ∀ s : State, s.status = .run → s.stream.size < s.pc.toNat + 2 →
    step s = .next { s with status := .haltExhausted, errHead := 0 } ∧ stepRecord s = none

/-- Rules R127, R212 and the second place of R213; halting without resynchronization is decision D14, the latches D16
(log entry 4). -/
def Obligations.UnmatchedHeadHalts : Prop :=
  ∀ (s : State) (b0 b1 : Byte), s.status = .run → s.stream.byteAt s.pc.toNat = some b0 →
    s.stream.byteAt (s.pc.toNat + 1) = some b1 → classify b0 b1 = none →
    step s = .next { s with status := .haltUnrecognized, errHead := BitVec.ofNat 16 (b0.toNat * 256 + b1.toNat) } ∧
      stepRecord s = none

/-- Rules R124, R127, R211 and the third place of R213; decisions D15 and D16 (log entry 4). -/
def Obligations.TrailingBytesExhaust : Prop :=
  ∀ (s : State) (b0 b1 : Byte) (k : Kind), s.status = .run → s.stream.byteAt s.pc.toNat = some b0 →
    s.stream.byteAt (s.pc.toNat + 1) = some b1 → classify b0 b1 = some k →
    s.stream.size < s.pc.toNat + headLength k b0 b1 →
    step s = .next { s with status := .haltExhausted, errHead := 0 } ∧ stepRecord s = none

/-- Rule R216, the spec's decision D28. -/
def Obligations.HaltedCoreStays : Prop :=
  ∀ s : State, Halted s → step s = .next s ∧ stepRecord s = none

/-- Rules R129 (itself derived in the spec), R210 and R222: the step is total and no execution can fail. -/
def Obligations.StepAlwaysAnswers : Prop :=
  (∀ s : State, ∃ t, step s = .next t) ∧ ∀ (i : Instr) (s : State), ∃ t, exec i s = .next t

/-- Rules R30, R31, R62 and R214, with the spec's decisions D15, D16 and D21 (log entries 1 and 4). -/
def Obligations.StreamAndLatchesFrame : Prop :=
  ∀ s t : State, step s = .next t →
    t.stream = s.stream ∧ (∀ a, t.stream.byteAt a = s.stream.byteAt a) ∧
    (t.status ≠ s.status ∨ t.errHead ≠ s.errHead →
      s.status = .run ∧ t.status ≠ .run ∧ (∃ f, s.fetch = .error f ∧ t = s.raise f) ∧
        KeepsRegs s t ∧ KeepsFlags s t ∧ t.pc = s.pc)

/-- Rules R28, R30, R31 and R217 over every state, reachable or not. The latches are decision D16, the canonical form
the model's choice (log entry 3). -/
def Obligations.StepKeepsInvariant : Prop :=
  ∀ s t : State, Inv s → step s = .next t → Inv t

/-- The first half of the invariant's induction (rules R35, R230, R232; how a program is presented is the model's
choice, log entry 2). -/
def Obligations.StartStatesHaveInvariant : Prop :=
  Inv State.reset ∧ (∀ bs : List Byte, Inv (State.load bs)) ∧ ∀ s : State, s.stream.wf = true → Inv s.restart

/-- Rule R62 (decision D21) and the invariant along the runs of rule R129, by one induction; presenting a stream is
the model's choice (log entry 2). -/
def Obligations.RunKeepsStreamAndInvariant : Prop :=
  ∀ (bs : List Byte) (t : State), Reaches (State.load bs) t →
    Inv t ∧ ∀ a, t.stream.byteAt a = (Memory.ofBytes bs).byteAt a

/-- Rule R217 (itself derived in the spec) from the invariant; the latches are decision D16. -/
def Obligations.EndStateReadings : Prop :=
  ∀ s : State, Inv s →
    (s.status = .haltExhausted →
      (endReading s = some .cleanEnd ∧ s.pc.toNat = s.stream.size) ∨
      (endReading s = some .truncated ∧ s.pc.toNat < s.stream.size ∧
        (s.stream.size < s.pc.toNat + 2 ∨ ∃ b0 b1 k, s.stream.byteAt s.pc.toNat = some b0 ∧
          s.stream.byteAt (s.pc.toNat + 1) = some b1 ∧ classify b0 b1 = some k ∧
          s.stream.size < s.pc.toNat + headLength k b0 b1)) ∨
      (endReading s = some .jumpedPastEnd ∧ s.stream.size < s.pc.toNat ∧ s.stream.size < 255)) ∧
    (s.status = .haltUnrecognized →
      endReading s = some .unrecognized ∧ s.pc.toNat + 2 ≤ s.stream.size ∧
      ∃ b0 b1, s.stream.byteAt s.pc.toNat = some b0 ∧ s.stream.byteAt (s.pc.toNat + 1) = some b1 ∧
        classify b0 b1 = none ∧ s.errHead.toNat = b0.toNat * 256 + b1.toNat)

/-- Rule R126 and the rules of 41, 42 and 43 as a second, independent definition (Sys2Proof/Reference.lean);
everything the spec decides itself (decisions D1 to D18, D24, D25, D29) is in both. -/
def Obligations.StepIsReferenceStep : Prop :=
  ∀ s : State, step s = .next (Reference.referenceStep s)

/-- The second sentence of rule R123, on the step as a whole (the fetch at pc is decision D13). -/
def Obligations.BytesOutsideUnread : Prop :=
  ∀ (s : State) (i : Instr) (m : Memory), s.status = .run → s.fetch = .ok i →
    (∀ a, s.pc.toNat ≤ a → a < s.pc.toNat + i.length → m.byteAt a = s.stream.byteAt a) →
    ∃ t, step s = .next t ∧ step { s with stream := m } = .next { t with stream := m }

/-- Rules R21, R29 (SF is read by no instruction), R118 and R184; the spec's decisions D8 and D24. -/
def Obligations.RegistersAndSignDoNotSteer : Prop :=
  ∀ (s t : State) (x : Vector Word 8) (f : Bool), step s = .next t →
    stepRecord { s with x := x, sf := f } = stepRecord s ∧
    ∃ u, step { s with x := x, sf := f } = .next u ∧
      u.pc = t.pc ∧ u.status = t.status ∧ u.errHead = t.errHead ∧ u.stream = t.stream

/-- The last item of rule R29. -/
def Obligations.SignFlagUnread : Prop :=
  ∀ (s t : State) (f : Bool), step s = .next t →
    ∃ u, step { s with sf := f } = .next u ∧ KeepsRegs t u ∧ u.pc = t.pc ∧ u.zf = t.zf ∧
      u.status = t.status ∧ u.errHead = t.errHead ∧ u.stream = t.stream

/-- Rule R29's list of writers (conflict C3 for mov; the skip is decision D8). -/
def Obligations.FlagsWrittenByArithmeticOnly : Prop :=
  ∀ s t : State, step s = .next t → (t.zf ≠ s.zf ∨ t.sf ≠ s.sf) →
    ∃ r op, stepRecord s = some r ∧ r.mnemonic = .data (.alu op) ∧ r.skipped = false

/-- Rule R22's list of writers (byte views are decision D6, the skip D8). -/
def Obligations.RegistersWrittenByDestinationOnly : Prop :=
  ∀ (s t : State) (n : RegField), step s = .next t → t.readReg n ≠ s.readReg n →
    ∃ r j w, stepRecord s = some r ∧ r.skipped = false ∧
      (r.mnemonic = .data .mov ∨ r.mnemonic = .data (.alu .add) ∨ r.mnemonic = .data (.alu .sub)) ∧
      r.dest = some (.register j w) ∧ (w = .word → n = j) ∧ (w = .byte → n.toNat < 4 ∧ n.toNat = j.toNat % 4)

/-- Rules R28 (itself derived), R125, R128, R180 and R181 on the step; decisions D8, D12 and D29. -/
def Obligations.RecordExplainsStep : Prop :=
  ∀ s t : State, step s = .next t →
    ((stepRecord s).isSome = true ↔ t.status = .run) ∧
    ∀ r, stepRecord s = some r →
      r.ip = s.pc ∧ (r.taken = true ↔ r.mnemonic = .jump .jnz ∧ s.zf = false) ∧
      (r.taken = true → r.source = .immediate t.pc ∧ t.pc.toNat ≤ 255) ∧
      (r.taken = false → t.pc.toNat = s.pc.toNat + r.len ∧ t.pc.toNat ≤ s.stream.size) ∧
      (r.skipped = true → KeepsRegs s t ∧ KeepsFlags s t)

/-- Rules R85 and R90 on the record of R125; the skip is decision D8, default fields D27. -/
def Obligations.RecordLengthParts : Prop :=
  ∀ (s : State) (r : Record), stepRecord s = some r →
    (match r.kind with
      | .rmReg _ => r.len = 2 + r.nd
      | .movImmReg => r.len = 1 + r.ni
      | .immAcc _ => r.len = 1 + r.ni
      | .grpImmRm => r.len = 2 + r.nd + r.ni
      | .jcc _ => r.len = 2 ∧ r.dest = none) ∧
    (match r.mode with
      | none => r.nd = 0
      | some .registerMode => r.nd = 0
      | some .memoryNoDisplacement => r.nd = if r.rm = 0b110#3 then 2 else 0
      | some .memoryDisplacement8 => r.nd = 1
      | some .memoryDisplacement16 => r.nd = 2) ∧
    (r.skipped = true ↔ r.mode ≠ none ∧ r.mode ≠ some .registerMode)

/-- Rule R150 at w = 1, mod = 11; which value of d means which direction is decision D3. -/
def Obligations.MovRegisterWord : Prop :=
  ∀ (s : State) (d : Direction) (reg r : RegField), ∃ t,
    exec (.movRmReg d .word reg (.reg r)) s = .next t ∧
    WordWritten (destNumber d reg r) (s.readReg (sourceNumber d reg r)) s t ∧
    KeepsFlags s t ∧ AdvancesBy 2 s t ∧ KeepsRest s t

/-- Rule R150 at w = 0, mod = 11, on the byte views of the spec's decision D6 (log entry 5); d is decision D3. -/
def Obligations.MovRegisterByte : Prop :=
  ∀ (s : State) (d : Direction) (reg r : RegField), ∃ t,
    exec (.movRmReg d .byte reg (.reg r)) s = .next t ∧
    ByteWritten (destNumber d reg r) (s.readByteReg (sourceNumber d reg r)) s t ∧
    KeepsFlags s t ∧ AdvancesBy 2 s t ∧ KeepsRest s t

/-- Rule R151; the byte form is on the byte views of decision D6 (log entry 5). -/
def Obligations.MovImmediate : Prop :=
  ∀ (s : State) (reg : RegField),
    (∀ v : Word, ∃ t, exec (.movImmReg reg (.imm16 v)) s = .next t ∧ WordWritten reg v s t ∧
      KeepsFlags s t ∧ AdvancesBy 3 s t ∧ KeepsRest s t) ∧
    (∀ v : Byte, ∃ t, exec (.movImmReg reg (.imm8 v)) s = .next t ∧ ByteWritten reg v s t ∧
      KeepsFlags s t ∧ AdvancesBy 2 s t ∧ KeepsRest s t)

/-- Rules R160 to R165, R170 at w = 1 with register operands; wrap-around is decision D25, the extension of one byte
D9, the direction D3. -/
def Obligations.AddWordForms : Prop :=
  ∀ s : State,
    (∀ (d : Direction) (reg r : RegField), ∃ t, exec (.addRmReg d .word reg (.reg r)) s = .next t ∧ WordWritten (destNumber d reg r) (s.readReg (destNumber d reg r) + s.readReg (sourceNumber d reg r)) s t ∧ FlagsOf (s.readReg (destNumber d reg r) + s.readReg (sourceNumber d reg r)) t ∧
      AdvancesBy 2 s t ∧ KeepsRest s t) ∧
    (∀ v : Word, ∃ t, exec (.addImmAcc (.imm16 v)) s = .next t ∧ WordWritten 0 (s.readReg 0 + v) s t ∧ FlagsOf (s.readReg 0 + v) t ∧
      AdvancesBy 3 s t ∧ KeepsRest s t) ∧
    (∀ (r : RegField) (v : Word), ∃ t, exec (.addImmRm false .word (.reg r) (.imm16 v)) s = .next t ∧ WordWritten r (s.readReg r + v) s t ∧ FlagsOf (s.readReg r + v) t ∧
      AdvancesBy 4 s t ∧ KeepsRest s t) ∧
    (∀ (r : RegField) (v : Byte), ∃ t, exec (.addImmRm true .word (.reg r) (.imm8 v)) s = .next t ∧ WordWritten r (s.readReg r + v.signExtend 16) s t ∧ FlagsOf (s.readReg r + v.signExtend 16) t ∧
      AdvancesBy 3 s t ∧ KeepsRest s t)

/-- Rules R160 to R165, R170 at w = 0 with register operands; byte views and zero extension are decisions D6 and D7
(log entry 5), the direction D3. -/
def Obligations.AddByteForms : Prop :=
  ∀ s : State,
    (∀ (d : Direction) (reg r : RegField), ∃ t, exec (.addRmReg d .byte reg (.reg r)) s = .next t ∧ ByteWritten (destNumber d reg r) (BitVec.ofNat 8 ((s.readByteReg (destNumber d reg r)).setWidth 16 + (s.readByteReg (sourceNumber d reg r)).setWidth 16).toNat) s t ∧ FlagsOf ((s.readByteReg (destNumber d reg r)).setWidth 16 + (s.readByteReg (sourceNumber d reg r)).setWidth 16) t ∧
      AdvancesBy 2 s t ∧ KeepsRest s t) ∧
    (∀ v : Byte, ∃ t, exec (.addImmAcc (.imm8 v)) s = .next t ∧ ByteWritten 0 (BitVec.ofNat 8 ((s.readByteReg 0).setWidth 16 + v.setWidth 16).toNat) s t ∧ FlagsOf ((s.readByteReg 0).setWidth 16 + v.setWidth 16) t ∧
      AdvancesBy 2 s t ∧ KeepsRest s t) ∧
    (∀ (sign : Bool) (r : RegField) (v : Byte), ∃ t, exec (.addImmRm sign .byte (.reg r) (.imm8 v)) s = .next t ∧ ByteWritten r (BitVec.ofNat 8 ((s.readByteReg r).setWidth 16 + v.setWidth 16).toNat) s t ∧ FlagsOf ((s.readByteReg r).setWidth 16 + v.setWidth 16) t ∧
      AdvancesBy 3 s t ∧ KeepsRest s t)

/-- Rules R160 to R163, R166, R167, R171 at w = 1 with register operands; wrap-around is decision D25, the extension
of one byte D9, the direction D3. -/
def Obligations.SubWordForms : Prop :=
  ∀ s : State,
    (∀ (d : Direction) (reg r : RegField), ∃ t, exec (.subRmReg d .word reg (.reg r)) s = .next t ∧ WordWritten (destNumber d reg r) (s.readReg (destNumber d reg r) - s.readReg (sourceNumber d reg r)) s t ∧ FlagsOf (s.readReg (destNumber d reg r) - s.readReg (sourceNumber d reg r)) t ∧
      AdvancesBy 2 s t ∧ KeepsRest s t) ∧
    (∀ v : Word, ∃ t, exec (.subImmAcc (.imm16 v)) s = .next t ∧ WordWritten 0 (s.readReg 0 - v) s t ∧ FlagsOf (s.readReg 0 - v) t ∧
      AdvancesBy 3 s t ∧ KeepsRest s t) ∧
    (∀ (r : RegField) (v : Word), ∃ t, exec (.subImmRm false .word (.reg r) (.imm16 v)) s = .next t ∧ WordWritten r (s.readReg r - v) s t ∧ FlagsOf (s.readReg r - v) t ∧
      AdvancesBy 4 s t ∧ KeepsRest s t) ∧
    (∀ (r : RegField) (v : Byte), ∃ t, exec (.subImmRm true .word (.reg r) (.imm8 v)) s = .next t ∧ WordWritten r (s.readReg r - v.signExtend 16) s t ∧ FlagsOf (s.readReg r - v.signExtend 16) t ∧
      AdvancesBy 3 s t ∧ KeepsRest s t)

/-- Rules R160 to R163, R166, R167, R171 at w = 0 with register operands; byte views and zero extension are decisions
D6 and D7 (log entry 5), the direction D3. -/
def Obligations.SubByteForms : Prop :=
  ∀ s : State,
    (∀ (d : Direction) (reg r : RegField), ∃ t, exec (.subRmReg d .byte reg (.reg r)) s = .next t ∧ ByteWritten (destNumber d reg r) (BitVec.ofNat 8 ((s.readByteReg (destNumber d reg r)).setWidth 16 - (s.readByteReg (sourceNumber d reg r)).setWidth 16).toNat) s t ∧ FlagsOf ((s.readByteReg (destNumber d reg r)).setWidth 16 - (s.readByteReg (sourceNumber d reg r)).setWidth 16) t ∧
      AdvancesBy 2 s t ∧ KeepsRest s t) ∧
    (∀ v : Byte, ∃ t, exec (.subImmAcc (.imm8 v)) s = .next t ∧ ByteWritten 0 (BitVec.ofNat 8 ((s.readByteReg 0).setWidth 16 - v.setWidth 16).toNat) s t ∧ FlagsOf ((s.readByteReg 0).setWidth 16 - v.setWidth 16) t ∧
      AdvancesBy 2 s t ∧ KeepsRest s t) ∧
    (∀ (sign : Bool) (r : RegField) (v : Byte), ∃ t, exec (.subImmRm sign .byte (.reg r) (.imm8 v)) s = .next t ∧ ByteWritten r (BitVec.ofNat 8 ((s.readByteReg r).setWidth 16 - v.setWidth 16).toNat) s t ∧ FlagsOf ((s.readByteReg r).setWidth 16 - v.setWidth 16) t ∧
      AdvancesBy 3 s t ∧ KeepsRest s t)

/-- Rules R160 to R162, R168, R169, R172 at w = 1 with register operands; wrap-around is decision D25, the extension
of one byte D9, the direction D3. -/
def Obligations.CmpWordForms : Prop :=
  ∀ s : State,
    (∀ (d : Direction) (reg r : RegField), ∃ t, exec (.cmpRmReg d .word reg (.reg r)) s = .next t ∧ KeepsRegs s t ∧ FlagsOf (s.readReg (destNumber d reg r) - s.readReg (sourceNumber d reg r)) t ∧
      AdvancesBy 2 s t ∧ KeepsRest s t) ∧
    (∀ v : Word, ∃ t, exec (.cmpImmAcc (.imm16 v)) s = .next t ∧ KeepsRegs s t ∧ FlagsOf (s.readReg 0 - v) t ∧
      AdvancesBy 3 s t ∧ KeepsRest s t) ∧
    (∀ (r : RegField) (v : Word), ∃ t, exec (.cmpImmRm true .word (.reg r) (.imm16 v)) s = .next t ∧ KeepsRegs s t ∧ FlagsOf (s.readReg r - v) t ∧
      AdvancesBy 4 s t ∧ KeepsRest s t) ∧
    (∀ (r : RegField) (v : Byte), ∃ t, exec (.cmpImmRm false .word (.reg r) (.imm8 v)) s = .next t ∧ KeepsRegs s t ∧ FlagsOf (s.readReg r - v.setWidth 16) t ∧
      AdvancesBy 3 s t ∧ KeepsRest s t)

/-- Rules R160 to R162, R168, R169, R172 at w = 0 with register operands; byte views and zero extension are decisions
D6 and D7 (log entry 5), the direction D3. -/
def Obligations.CmpByteForms : Prop :=
  ∀ s : State,
    (∀ (d : Direction) (reg r : RegField), ∃ t, exec (.cmpRmReg d .byte reg (.reg r)) s = .next t ∧ KeepsRegs s t ∧ FlagsOf ((s.readByteReg (destNumber d reg r)).setWidth 16 - (s.readByteReg (sourceNumber d reg r)).setWidth 16) t ∧
      AdvancesBy 2 s t ∧ KeepsRest s t) ∧
    (∀ v : Byte, ∃ t, exec (.cmpImmAcc (.imm8 v)) s = .next t ∧ KeepsRegs s t ∧ FlagsOf ((s.readByteReg 0).setWidth 16 - v.setWidth 16) t ∧
      AdvancesBy 2 s t ∧ KeepsRest s t) ∧
    (∀ (sign : Bool) (r : RegField) (v : Byte), ∃ t, exec (.cmpImmRm sign .byte (.reg r) (.imm8 v)) s = .next t ∧ KeepsRegs s t ∧ FlagsOf ((s.readByteReg r).setWidth 16 - v.setWidth 16) t ∧
      AdvancesBy 3 s t ∧ KeepsRest s t)

/-- Rule R162, with the inputs of rule R161 read by readOperand. -/
def Obligations.FlagUnitLaw : Prop :=
  ∀ (i : Instr) (s : State) (op : AluOp) (dest : Operand) (a b : Word),
    (recordOf i s).mnemonic = .data (.alu op) → (recordOf i s).dest = some dest →
    s.readOperand dest = some a → s.readOperand (recordOf i s).source = some b →
    ∃ t, exec i s = .next t ∧
      (op = .add → (t.zf = true ↔ a + b = 0) ∧ t.sf = (a + b).getLsbD 15) ∧
      (op ≠ .add → (t.zf = true ↔ a - b = 0) ∧ t.sf = (a - b).getLsbD 15)

/-- The w = 0 lines of rule R173 (itself derived in the spec; decisions D6 and D7, log entry 5), on the register
forms. -/
def Obligations.ByteArithmeticFlags : Prop :=
  ∀ (s : State) (d : Direction) (reg r : RegField),
    (∃ t, exec (.cmpRmReg d .byte reg (.reg r)) s = .next t ∧
      (t.zf = true ↔ s.readByteReg (destNumber d reg r) = s.readByteReg (sourceNumber d reg r)) ∧
      (t.sf = true ↔ (s.readByteReg (destNumber d reg r)).toNat < (s.readByteReg (sourceNumber d reg r)).toNat)) ∧
    (∃ t, exec (.subRmReg d .byte reg (.reg r)) s = .next t ∧
      (t.zf = true ↔ s.readByteReg (destNumber d reg r) = s.readByteReg (sourceNumber d reg r)) ∧
      (t.sf = true ↔ (s.readByteReg (destNumber d reg r)).toNat < (s.readByteReg (sourceNumber d reg r)).toNat) ∧
      t.readByteReg (destNumber d reg r) =
        s.readByteReg (destNumber d reg r) - s.readByteReg (sourceNumber d reg r)) ∧
    (∃ t, exec (.addRmReg d .byte reg (.reg r)) s = .next t ∧ t.sf = false ∧
      (t.zf = true ↔ s.readByteReg (destNumber d reg r) = 0 ∧ s.readByteReg (sourceNumber d reg r) = 0) ∧
      t.readByteReg (destNumber d reg r) =
        s.readByteReg (destNumber d reg r) + s.readByteReg (sourceNumber d reg r))

/-- The w = 1 lines of rule R173 (itself derived in the spec; wrap-around is decision D25), on the register forms. -/
def Obligations.WordCompareEquality : Prop :=
  ∀ (s : State) (d : Direction) (reg r : RegField),
    (∃ t, exec (.cmpRmReg d .word reg (.reg r)) s = .next t ∧
      (t.zf = true ↔ s.readReg (destNumber d reg r) = s.readReg (sourceNumber d reg r))) ∧
    (∃ t, exec (.subRmReg d .word reg (.reg r)) s = .next t ∧
      (t.zf = true ↔ s.readReg (destNumber d reg r) = s.readReg (sourceNumber d reg r))) ∧
    (∃ t, exec (.addRmReg d .word reg (.reg r)) s = .next t ∧
      (t.zf = true ↔
        (s.readReg (destNumber d reg r)).toNat + (s.readReg (sourceNumber d reg r)).toNat = 0 ∨
        (s.readReg (destNumber d reg r)).toNat + (s.readReg (sourceNumber d reg r)).toNat = 65536))

/-- Rule R128, the spec's decision D8: the default of its parameter MEMOP_POLICY (log entry 6). -/
def Obligations.MemoryOperandsSkip : Prop :=
  ∀ (s : State) (d : Direction) (w : Width) (reg : RegField) (rm : RmField) (sign : Bool) (imm : Imm),
    rm.wf = true → (∀ r, rm ≠ .reg r) →
    (∀ i ∈ [Instr.movRmReg d w reg rm, .addRmReg d w reg rm, .subRmReg d w reg rm, .cmpRmReg d w reg rm],
      ∃ t, exec i s = .next t ∧ KeepsRegs s t ∧ KeepsFlags s t ∧ KeepsRest s t ∧
        AdvancesBy (2 + (dispBytes rm).length) s t) ∧
    ∀ i ∈ [Instr.addImmRm sign w rm imm, .subImmRm sign w rm imm, .cmpImmRm sign w rm imm],
      ∃ t, exec i s = .next t ∧ KeepsRegs s t ∧ KeepsFlags s t ∧ KeepsRest s t ∧
        AdvancesBy (2 + (dispBytes rm).length + (immBytes imm).length) s t

/-- Rules R181 and R182 (conflict C10); the width of the target is decision D29. -/
def Obligations.JnzJumpsOrFallsThrough : Prop :=
  ∀ (s : State) (v : Byte),
    (s.zf = false → ∃ t, exec (.jnz v) s = .next t ∧ t.pc.toNat = v.toNat ∧
      KeepsRegs s t ∧ KeepsFlags s t ∧ KeepsRest s t) ∧
    (s.zf = true → ∃ t, exec (.jnz v) s = .next t ∧ AdvancesBy 2 s t ∧
      KeepsRegs s t ∧ KeepsFlags s t ∧ KeepsRest s t)

/-- Rules R184 to R203 (conflict C4); that they have no effect at all is the spec's decision D24. -/
def Obligations.NotWiredFallThrough : Prop :=
  ∀ (s : State) (v : Byte),
    ∀ i ∈ [Instr.jo v, .jno v, .jb v, .jnb v, .jz v, .jbe v, .ja v, .js v, .jns v, .jp v,
        .jnp v, .jl v, .jnl v, .jle v, .jg v, .loopnz v, .loopz v, .loop v, .jcxz v],
      ∃ t, exec i s = .next t ∧ AdvancesBy 2 s t ∧ KeepsRegs s t ∧ KeepsFlags s t ∧ KeepsRest s t

/-- Rules R53 and R88, whole, on what the decoder answers; s, w, nd and ni are the fields of the record, so no bit
position of the head is part of it. In formats IR and IA both wide and ni are read off the immediate, so the count
of rule R87 is not claimed here: Obligations.WideBitGivesDataBytes ties it to the head. -/
def Obligations.ImmediateDataBytes : Prop :=
  ∀ (bs rest : List Byte) (i : Instr) (s : State), decode bs = .ok (i, rest) →
    (∀ (reg : RegField) (op : AluOp) (imm : Imm), i.format = .ir reg imm ∨ i.format = .ia op imm →
      ((recordOf i s).wide = false → (recordOf i s).ni = 1 ∧ ∃ v, bs[1]? = some v ∧ imm = .imm8 v) ∧
      ((recordOf i s).wide = true → (recordOf i s).ni = 2 ∧
        ∃ lo hi, bs[1]? = some lo ∧ bs[2]? = some hi ∧ imm = .imm16 (hi ++ lo))) ∧
    ∀ (op : AluOp) (sign : Bool) (w : Width) (rm : RmField) (imm : Imm), i.format = .gi op sign w rm imm →
      ((recordOf i s).ni = 2 ↔
        (op = .cmp ∧ (recordOf i s).sign = true ∧ (recordOf i s).wide = true) ∨
        ((op = .add ∨ op = .sub) ∧ (recordOf i s).sign = false ∧ (recordOf i s).wide = true)) ∧
      ((recordOf i s).ni ≠ 2 → (recordOf i s).ni = 1 ∧
        ∃ v, bs[2 + (recordOf i s).nd]? = some v ∧ imm = .imm8 v) ∧
      ((recordOf i s).ni = 2 → ∃ lo hi, bs[2 + (recordOf i s).nd]? = some lo ∧
        bs[2 + (recordOf i s).nd + 1]? = some hi ∧ imm = .imm16 (hi ++ lo))

/-- Rule R87 with the w bit where rules R73 (format IR) and R74 (format IA) place it; the byte order is rule R53. That
w is bit 0 in format IA is decision D2 (log entry 13). -/
def Obligations.WideBitGivesDataBytes : Prop :=
  ∀ (b0 : Byte) (tl rest : List Byte) (i : Instr) (imm : Imm) (w : Bool), decode (b0 :: tl) = .ok (i, rest) →
    ((∃ reg, i.format = .ir reg imm) ∧ w = b0.getLsbD 3) ∨ ((∃ op, i.format = .ia op imm) ∧ w = b0.getLsbD 0) →
    (∀ s : State, (recordOf i s).wide = w) ∧
    (w = false → ∃ v, imm = .imm8 v ∧ tl = v :: rest) ∧
    (w = true → ∃ lo hi, imm = .imm16 (hi ++ lo) ∧ tl = lo :: hi :: rest)
end

