-- ==== Sys2Proof/Laws/PerInstr.lean ====
section
/-! SUPPORT. The family EncodedLength, one lemma per instruction: the bytes of a well-formed instruction are as many as
its length says, between two and six (rules R70, R90). -/

namespace Sys2Proof.Laws

/-- A well-formed instruction is encoded in `length` bytes, at least two and at most six (rules R70, R90). -/
def EncodedLength.Statement (i : Instr) : Prop :=
  i.WellFormed → (encode i).length = i.length ∧ 2 ≤ i.length ∧ i.length ≤ 6

theorem EncodedLength.movRmReg (d : Direction) (w : Width) (reg : RegField) (rm : RmField) :
    EncodedLength.Statement (.movRmReg d w reg rm) := fun h => by
  have hd := dispBytes_length_of_wf (f := rm) (by simpa [Instr.WellFormed, Instr.wf] using h)
  have hr := rmDispCount_le rm
  simp only [encode, Instr.length, Instr.format, encodeFormat, formatLength, List.length_cons]
  omega

theorem EncodedLength.movImmReg (reg : RegField) (imm : Imm) :
    EncodedLength.Statement (.movImmReg reg imm) := fun _ => by cases imm <;> simp [encode, Instr.length, Instr.format, encodeFormat, formatLength, immBytes, Machine.immCount]

theorem EncodedLength.addRmReg (d : Direction) (w : Width) (reg : RegField) (rm : RmField) :
    EncodedLength.Statement (.addRmReg d w reg rm) := fun h => by
  have hd := dispBytes_length_of_wf (f := rm) (by simpa [Instr.WellFormed, Instr.wf] using h)
  have hr := rmDispCount_le rm
  simp only [encode, Instr.length, Instr.format, encodeFormat, formatLength, List.length_cons]
  omega

theorem EncodedLength.addImmAcc (imm : Imm) :
    EncodedLength.Statement (.addImmAcc imm) := fun _ => by cases imm <;> simp [encode, Instr.length, Instr.format, encodeFormat, formatLength, immBytes, Machine.immCount]

theorem EncodedLength.addImmRm (s : Bool) (w : Width) (rm : RmField) (imm : Imm) :
    EncodedLength.Statement (.addImmRm s w rm imm) := fun h => by
  have hw : rm.wf = true ∧ grpImmWf .add s w imm = true := by simpa [Instr.WellFormed, Instr.wf] using h
  have hd := dispBytes_length_of_wf hw.1
  have hr := rmDispCount_le rm
  have hi := immCount_pos imm
  simp only [encode, Instr.length, Instr.format, encodeFormat, formatLength, List.length_cons, List.length_append,
    immBytes_length]
  omega

theorem EncodedLength.subRmReg (d : Direction) (w : Width) (reg : RegField) (rm : RmField) :
    EncodedLength.Statement (.subRmReg d w reg rm) := fun h => by
  have hd := dispBytes_length_of_wf (f := rm) (by simpa [Instr.WellFormed, Instr.wf] using h)
  have hr := rmDispCount_le rm
  simp only [encode, Instr.length, Instr.format, encodeFormat, formatLength, List.length_cons]
  omega

theorem EncodedLength.subImmAcc (imm : Imm) :
    EncodedLength.Statement (.subImmAcc imm) := fun _ => by cases imm <;> simp [encode, Instr.length, Instr.format, encodeFormat, formatLength, immBytes, Machine.immCount]

theorem EncodedLength.subImmRm (s : Bool) (w : Width) (rm : RmField) (imm : Imm) :
    EncodedLength.Statement (.subImmRm s w rm imm) := fun h => by
  have hw : rm.wf = true ∧ grpImmWf .sub s w imm = true := by simpa [Instr.WellFormed, Instr.wf] using h
  have hd := dispBytes_length_of_wf hw.1
  have hr := rmDispCount_le rm
  have hi := immCount_pos imm
  simp only [encode, Instr.length, Instr.format, encodeFormat, formatLength, List.length_cons, List.length_append,
    immBytes_length]
  omega

theorem EncodedLength.cmpRmReg (d : Direction) (w : Width) (reg : RegField) (rm : RmField) :
    EncodedLength.Statement (.cmpRmReg d w reg rm) := fun h => by
  have hd := dispBytes_length_of_wf (f := rm) (by simpa [Instr.WellFormed, Instr.wf] using h)
  have hr := rmDispCount_le rm
  simp only [encode, Instr.length, Instr.format, encodeFormat, formatLength, List.length_cons]
  omega

theorem EncodedLength.cmpImmAcc (imm : Imm) :
    EncodedLength.Statement (.cmpImmAcc imm) := fun _ => by cases imm <;> simp [encode, Instr.length, Instr.format, encodeFormat, formatLength, immBytes, Machine.immCount]

theorem EncodedLength.cmpImmRm (s : Bool) (w : Width) (rm : RmField) (imm : Imm) :
    EncodedLength.Statement (.cmpImmRm s w rm imm) := fun h => by
  have hw : rm.wf = true ∧ grpImmWf .cmp s w imm = true := by simpa [Instr.WellFormed, Instr.wf] using h
  have hd := dispBytes_length_of_wf hw.1
  have hr := rmDispCount_le rm
  have hi := immCount_pos imm
  simp only [encode, Instr.length, Instr.format, encodeFormat, formatLength, List.length_cons, List.length_append,
    immBytes_length]
  omega

theorem EncodedLength.jo (disp : Byte) :
    EncodedLength.Statement (.jo disp) := fun _ => by simp [encode, Instr.length, Instr.format, encodeFormat, formatLength]

theorem EncodedLength.jno (disp : Byte) :
    EncodedLength.Statement (.jno disp) := fun _ => by simp [encode, Instr.length, Instr.format, encodeFormat, formatLength]

theorem EncodedLength.jb (disp : Byte) :
    EncodedLength.Statement (.jb disp) := fun _ => by simp [encode, Instr.length, Instr.format, encodeFormat, formatLength]

theorem EncodedLength.jnb (disp : Byte) :
    EncodedLength.Statement (.jnb disp) := fun _ => by simp [encode, Instr.length, Instr.format, encodeFormat, formatLength]

theorem EncodedLength.jz (disp : Byte) :
    EncodedLength.Statement (.jz disp) := fun _ => by simp [encode, Instr.length, Instr.format, encodeFormat, formatLength]

theorem EncodedLength.jnz (disp : Byte) :
    EncodedLength.Statement (.jnz disp) := fun _ => by simp [encode, Instr.length, Instr.format, encodeFormat, formatLength]

theorem EncodedLength.jbe (disp : Byte) :
    EncodedLength.Statement (.jbe disp) := fun _ => by simp [encode, Instr.length, Instr.format, encodeFormat, formatLength]

theorem EncodedLength.ja (disp : Byte) :
    EncodedLength.Statement (.ja disp) := fun _ => by simp [encode, Instr.length, Instr.format, encodeFormat, formatLength]

theorem EncodedLength.js (disp : Byte) :
    EncodedLength.Statement (.js disp) := fun _ => by simp [encode, Instr.length, Instr.format, encodeFormat, formatLength]

theorem EncodedLength.jns (disp : Byte) :
    EncodedLength.Statement (.jns disp) := fun _ => by simp [encode, Instr.length, Instr.format, encodeFormat, formatLength]

theorem EncodedLength.jp (disp : Byte) :
    EncodedLength.Statement (.jp disp) := fun _ => by simp [encode, Instr.length, Instr.format, encodeFormat, formatLength]

theorem EncodedLength.jnp (disp : Byte) :
    EncodedLength.Statement (.jnp disp) := fun _ => by simp [encode, Instr.length, Instr.format, encodeFormat, formatLength]

theorem EncodedLength.jl (disp : Byte) :
    EncodedLength.Statement (.jl disp) := fun _ => by simp [encode, Instr.length, Instr.format, encodeFormat, formatLength]

theorem EncodedLength.jnl (disp : Byte) :
    EncodedLength.Statement (.jnl disp) := fun _ => by simp [encode, Instr.length, Instr.format, encodeFormat, formatLength]

theorem EncodedLength.jle (disp : Byte) :
    EncodedLength.Statement (.jle disp) := fun _ => by simp [encode, Instr.length, Instr.format, encodeFormat, formatLength]

theorem EncodedLength.jg (disp : Byte) :
    EncodedLength.Statement (.jg disp) := fun _ => by simp [encode, Instr.length, Instr.format, encodeFormat, formatLength]

theorem EncodedLength.loopnz (disp : Byte) :
    EncodedLength.Statement (.loopnz disp) := fun _ => by simp [encode, Instr.length, Instr.format, encodeFormat, formatLength]

theorem EncodedLength.loopz (disp : Byte) :
    EncodedLength.Statement (.loopz disp) := fun _ => by simp [encode, Instr.length, Instr.format, encodeFormat, formatLength]

theorem EncodedLength.loop (disp : Byte) :
    EncodedLength.Statement (.loop disp) := fun _ => by simp [encode, Instr.length, Instr.format, encodeFormat, formatLength]

theorem EncodedLength.jcxz (disp : Byte) :
    EncodedLength.Statement (.jcxz disp) := fun _ => by simp [encode, Instr.length, Instr.format, encodeFormat, formatLength]

end Sys2Proof.Laws
end

