-- ==== Sys2Proof/Tests/Slice0.lean ====
section
/-! SUPPORT. The model's own tests: the smoke test of WellFormed, one decoding per instruction with its bytes written out
from 30_encoding.md, single steps whose expected results are the vectors of 95_test_vectors.md, and for every statement with
hypotheses a concrete state and operands that meet them. -/

namespace Sys2Proof.Tests

open Sys2Proof.Machine

/-! ### WellFormed refuses an ill-formed term of each kind -/

theorem test_wf_refuses_base_110 : (Instr.movRmReg .toReg .word 0 (.base 0b110#3)).wf = false := by decide
theorem test_wf_refuses_base_110_in_group : (Instr.addImmRm false .byte (.base 0b110#3) (.imm8 1)).wf = false := by decide
theorem test_wf_refuses_add_with_two_bytes_for_one : (Instr.addImmRm true .word (.reg 0) (.imm16 1)).wf = false := by decide
theorem test_wf_refuses_cmp_with_one_byte_for_two : (Instr.cmpImmRm true .word (.reg 0) (.imm8 1)).wf = false := by decide
theorem test_wf_refuses_sub_with_two_bytes_at_w0 : (Instr.subImmRm false .byte (.reg 0) (.imm16 1)).wf = false := by decide
theorem test_wf_accepts_direct : (Instr.movRmReg .toReg .word 0 (.direct 4660)).wf = true := by decide

/-! ### Decoding, bytes written out bit by bit from rules R72 to R81 -/

/-- 100010 d=0 w=1, mod=11 reg=011 rm=001 -/
theorem test_decode_movRmReg : decode [0b10001001, 0b11011001] = .ok (.movRmReg .toRm .word 3 (.reg 1), []) := by rfl
/-- 1011 w=1 reg=000, 05 00 -/
theorem test_decode_movImmReg : decode [0b10111000, 0x05, 0x00] = .ok (.movImmReg 0 (.imm16 5), []) := by rfl
/-- 000000 d=1 w=0, mod=00 reg=000 rm=110, 34 12 -/
theorem test_decode_addRmReg :
    decode [0b00000010, 0b00000110, 0x34, 0x12] = .ok (.addRmReg .toReg .byte 0 (.direct 4660), []) := by rfl
/-- 0000010 w=0, 09 -/
theorem test_decode_addImmAcc : decode [0b00000100, 0x09] = .ok (.addImmAcc (.imm8 9), []) := by rfl
/-- 001010 d=1 w=1, mod=01 reg=000 rm=110, 02 -/
theorem test_decode_subRmReg :
    decode [0b00101011, 0b01000110, 0x02] = .ok (.subRmReg .toReg .word 0 (.baseDisp8 6 2), []) := by rfl
/-- 0010110 w=1, 34 12 -/
theorem test_decode_subImmAcc : decode [0b00101101, 0x34, 0x12] = .ok (.subImmAcc (.imm16 4660), []) := by rfl
/-- 001110 d=0 w=1, mod=00 reg=001 rm=111 -/
theorem test_decode_cmpRmReg : decode [0b00111001, 0b00001111] = .ok (.cmpRmReg .toRm .word 1 (.base 7), []) := by rfl
/-- 0011110 w=0, 05 -/
theorem test_decode_cmpImmAcc : decode [0b00111100, 0x05] = .ok (.cmpImmAcc (.imm8 5), []) := by rfl
/-- 100000 s=0 w=1, mod=10 000 rm=000, 34 12, E8 03 -/
theorem test_decode_addImmRm : decode [0b10000001, 0b10000000, 0x34, 0x12, 0xE8, 0x03] =
    .ok (.addImmRm false .word (.baseDisp16 0 4660) (.imm16 1000), []) := by rfl
/-- 100000 s=1 w=1, mod=11 101 rm=001, 01 -/
theorem test_decode_subImmRm :
    decode [0b10000011, 0b11101001, 0x01] = .ok (.subImmRm true .word (.reg 1) (.imm8 1), []) := by rfl
/-- 100000 s=1 w=1, mod=11 111 rm=001, 0A 00 -/
theorem test_decode_cmpImmRm :
    decode [0b10000011, 0b11111001, 0x0A, 0x00] = .ok (.cmpImmRm true .word (.reg 1) (.imm16 10), []) := by rfl
theorem test_decode_jo : decode [0b01110000, 0x05] = .ok (.jo 5, []) := by rfl
theorem test_decode_jno : decode [0b01110001, 0x05] = .ok (.jno 5, []) := by rfl
theorem test_decode_jb : decode [0b01110010, 0x05] = .ok (.jb 5, []) := by rfl
theorem test_decode_jnb : decode [0b01110011, 0x05] = .ok (.jnb 5, []) := by rfl
theorem test_decode_jz : decode [0b01110100, 0x05] = .ok (.jz 5, []) := by rfl
theorem test_decode_jnz : decode [0b01110101, 0x05] = .ok (.jnz 5, []) := by rfl
theorem test_decode_jbe : decode [0b01110110, 0x05] = .ok (.jbe 5, []) := by rfl
theorem test_decode_ja : decode [0b01110111, 0x05] = .ok (.ja 5, []) := by rfl
theorem test_decode_js : decode [0b01111000, 0x05] = .ok (.js 5, []) := by rfl
theorem test_decode_jns : decode [0b01111001, 0x05] = .ok (.jns 5, []) := by rfl
theorem test_decode_jp : decode [0b01111010, 0x05] = .ok (.jp 5, []) := by rfl
theorem test_decode_jnp : decode [0b01111011, 0x05] = .ok (.jnp 5, []) := by rfl
theorem test_decode_jl : decode [0b01111100, 0x05] = .ok (.jl 5, []) := by rfl
theorem test_decode_jnl : decode [0b01111101, 0x05] = .ok (.jnl 5, []) := by rfl
theorem test_decode_jle : decode [0b01111110, 0x05] = .ok (.jle 5, []) := by rfl
theorem test_decode_jg : decode [0b01111111, 0x05] = .ok (.jg 5, []) := by rfl
theorem test_decode_loopnz : decode [0b11100000, 0x05] = .ok (.loopnz 5, []) := by rfl
theorem test_decode_loopz : decode [0b11100001, 0x05] = .ok (.loopz 5, []) := by rfl
theorem test_decode_loop : decode [0b11100010, 0x05] = .ok (.loop 5, []) := by rfl
theorem test_decode_jcxz : decode [0b11100011, 0x05] = .ok (.jcxz 5, []) := by rfl

/-- An unrecognized opcode byte, and a group sub-operation that is none of add, sub, cmp (FAIL4, FAIL11). -/
theorem test_decode_unrecognized :
    decode [0xF4, 0x00] = .error (.unrecognizedOpcode 0xF400) ∧
    decode [0x83, 0xC9, 0x01, 0x00] = .error (.unrecognizedOpcode 0x83C9) := ⟨rfl, rfl⟩
/-- Missing bytes: in the head, in a displacement, in the data of the six-byte form (FAIL3, FAIL7, FAIL10). -/
theorem test_decode_exhausted :
    decode [0xF4] = .error .streamExhausted ∧ decode [0x8B, 0x80, 0x01] = .error .streamExhausted ∧
    decode [0x81, 0x06, 0x34, 0x12, 0xE8] = .error .streamExhausted := ⟨rfl, rfl, rfl⟩

/-- The 31 rows of spec/opcode_table.json, their "match" words, in the table's order. -/
theorem test_table_words :
    ([0x8800, 0xB000, 0x0000, 0x0400, 0x2800, 0x2C00, 0x3800, 0x3C00, 0x8000, 0x8028, 0x8038].map (decodeTableWord 16)) =
      [some (.movRmReg .toRm .byte 0 (.base 0)), some (.movImmReg 0 (.imm8 0)), some (.addRmReg .toRm .byte 0 (.base 0)),
       some (.addImmAcc (.imm8 0)), some (.subRmReg .toRm .byte 0 (.base 0)), some (.subImmAcc (.imm8 0)),
       some (.cmpRmReg .toRm .byte 0 (.base 0)), some (.cmpImmAcc (.imm8 0)),
       some (.addImmRm false .byte (.base 0) (.imm8 0)), some (.subImmRm false .byte (.base 0) (.imm8 0)),
       some (.cmpImmRm false .byte (.base 0) (.imm8 0))] := by decide
theorem test_table_jump_words :
    ([0x7000, 0x7100, 0x7200, 0x7300, 0x7400, 0x7500, 0x7600, 0x7700, 0x7800, 0x7900, 0x7A00, 0x7B00, 0x7C00, 0x7D00,
      0x7E00, 0x7F00, 0xE000, 0xE100, 0xE200, 0xE300].map (decodeTableWord 16)) =
      jccOrder.map fun c => some (Format.j c 0).toInstr := by decide

/-! ### Single steps (95_test_vectors.md) -/

/-- A state with these registers and flags in front of a stream that holds exactly these bytes. -/
def before (bs : List Byte) (x : Vector Word 8) (zf sf : Bool) : State := { State.load bs with x := x, zf := zf, sf := sf }

/-- Register `n`, pc, ZF, SF and STATUS code after one step. -/
def seen (n : RegField) (s : State) : Option (Word × Word × Bool × Bool × Nat) :=
  match step s with
  | .next t => some (t.readReg n, t.pc, t.zf, t.sf, statusCode t.status)
  | .fault _ => none
  | .refused _ => none

/-- MOV19: mov ah, al -/
theorem test_mov_byte_views : seen 0 (before [0x88, 0xC4] #v[0x00AB, 0, 0, 0, 0, 0, 0, 0] false false) =
    some (0xABAB, 2, false, false, 0) := by decide
/-- MOV27: mov bx, [4660] moves nothing -/
theorem test_mov_memory_skips : seen 3 (before [0x8B, 0x1E, 0x34, 0x12] #v[0, 0, 0, 9, 0, 0, 0, 0] true false) =
    some (9, 4, true, false, 0) := by decide
/-- MOV6: mov ch, 21 keeps cl -/
theorem test_movImm_high_byte : seen 1 (before [0xB5, 0x15] #v[0, 0xBBBB, 0, 0, 0, 0, 0, 0] false false) =
    some (0x15BB, 2, false, false, 0) := by decide
/-- MOV24: mov ax, 0 touches no flag -/
theorem test_movImm_keeps_flags : seen 0 (before [0xB8, 0, 0] #v[0x1234, 0, 0, 0, 0, 0, 0, 0] false true) =
    some (0, 3, false, true, 0) := by decide
/-- ADD3: d=1, 1 + 0xFFFF wraps to 0 -/
theorem test_add_wraps : seen 3 (before [0x03, 0xD8] #v[0xFFFF, 0, 0, 1, 0, 0, 0, 0] false false) =
    some (0, 2, true, false, 0) := by decide
/-- ADD5: 0xFF + 1 at w=0 leaves ZF clear and ah -/
theorem test_add_byte_carry : seen 0 (before [0x00, 0xC8] #v[0x12FF, 0x3401, 0, 0, 0, 0, 0, 0] false false) =
    some (0x1200, 2, false, false, 0) := by decide
/-- ADD12: add al, 9 -/
theorem test_addAcc_byte : seen 0 (before [0x04, 0x09] #v[0x01F8, 0, 0, 0, 0, 0, 0, 0] false false) =
    some (0x0101, 2, false, false, 0) := by decide
/-- SUB6: a borrow at w=0 sets SF -/
theorem test_sub_byte_borrow : seen 0 (before [0x28, 0xC8] #v[0x0010, 0x0090, 0, 0, 0, 0, 0, 0] false false) =
    some (0x0080, 2, false, true, 0) := by decide
/-- SUB2: source = destination -/
theorem test_sub_self : seen 0 (before [0x29, 0xC0] #v[0x1234, 0, 0, 0, 0, 0, 0, 0] false false) =
    some (0, 2, true, false, 0) := by decide
/-- SUB11: sub ax, 32768 -/
theorem test_subAcc_sign : seen 0 (before [0x2D, 0x00, 0x80] #v[0, 0, 0, 0, 0, 0, 0, 0] false false) =
    some (0x8000, 3, false, true, 0) := by decide
/-- CMP3: d=1, 0x8000 - 1, cx kept -/
theorem test_cmp_keeps_destination : seen 1 (before [0x3B, 0xCB] #v[0, 0x8000, 0, 1, 0, 0, 0, 0] false false) =
    some (0x8000, 2, false, false, 0) := by decide
/-- CMP8: cmp ax, 0 clears SF -/
theorem test_cmpAcc_clears_sign : seen 0 (before [0x3D, 0, 0] #v[0, 0, 0, 0, 0, 0, 0, 0] true true) =
    some (0, 3, true, false, 0) := by decide
/-- GRP8: a data byte 0x80 is sign-extended at s=1, w=1 -/
theorem test_addGroup_sign_extends : seen 3 (before [0x83, 0xC3, 0x80] #v[0, 0, 0, 1, 0, 0, 0, 0] false false) =
    some (0xFF81, 3, false, true, 0) := by decide
/-- GRP24: rm=100 at w=0 is ah -/
theorem test_addGroup_high_byte : seen 0 (before [0x80, 0xC4, 0x01] #v[0xFF00, 0, 0, 0, 0, 0, 0, 0] false false) =
    some (0, 3, false, false, 0) := by decide
/-- GRP14: 0 - 0xFFFF -/
theorem test_subGroup_sign_extends : seen 3 (before [0x83, 0xEB, 0xFF] #v[0, 0, 0, 0, 0, 0, 0, 0] false false) =
    some (1, 3, false, false, 0) := by decide
/-- GRP17: cmp with s=0, w=1 has one data byte, zero-extended -/
theorem test_cmpGroup_one_byte : seen 1 (before [0x81, 0xF9, 0xFF] #v[0, 0x00FF, 0, 0, 0, 0, 0, 0] false false) =
    some (0x00FF, 3, true, false, 0) := by decide
/-- GRP28: cmp [4096], 7 with s=1, w=1 has six bytes -/
theorem test_cmpGroup_six_bytes : seen 0 (before [0x83, 0x3E, 0, 0x10, 7, 0] #v[0, 0, 0, 0, 0, 0, 0, 0] true true) =
    some (0, 6, true, true, 0) := by decide
/-- JMP1 and JMP2: jnz 254 -/
theorem test_jnz : seen 0 (before [0x75, 0xFE] #v[0, 0, 0, 0, 0, 0, 0, 0] false false) = some (0, 254, false, false, 0) ∧
    seen 0 (before [0x75, 0xFE] #v[0, 0, 0, 0, 0, 0, 0, 0] true false) = some (0, 2, true, false, 0) := by decide
/-- JMP6 to JMP25: of the twenty opcodes only jnz branches, and cx is not counted -/
theorem test_not_wired : ∀ c ∈ jccOrder,
    seen 1 (before [jccOpcode c, 0x05] #v[0, 3, 0, 0, 0, 0, 0, 0] false true) =
      some (3, if c = .jnz then 5 else 2, false, true, 0) := by decide
/-- FAIL36: an unrecognized head keeps registers and flags -/
theorem test_unrecognized_keeps_state : step (before [0xF4, 0x00] #v[0x1234, 0, 0, 0, 0, 0, 0, 0] true true) =
    .next { before [0xF4, 0x00] #v[0x1234, 0, 0, 0, 0, 0, 0, 0] true true with
      status := .haltUnrecognized, errHead := 0xF400 } := by rfl
/-- FAIL1: the empty stream -/
theorem test_empty_stream : seen 0 State.reset = some (0, 0, false, false, 1) := by decide
/-- A word of the opcode table, presented to the machine after reset, is the next instruction run: jnz 7 -/
theorem test_withFetchWord : seen 0 (State.reset.withFetchWord 16 0x7507) = some (0, 7, false, false, 0) := by decide

/-- The text of S1, DEC34, DEC36 and JMP22 -/
theorem test_text :
    ([[0xB8, 5, 0], [0x8B, 0x40, 0x80], [0x8B, 0x06, 0, 0], [0xE0, 5]].map fun bs =>
      (stepRecord (State.load bs)).map recordText) =
    [some "mov ax, 5", some "mov ax, [bx+si+128]", some "mov ax, [0]", some "loopnz 5"] := by decide
/-- The record of GRP25, add [bp+2], 5 -/
theorem test_record : (stepRecord (State.load [0x83, 0x46, 0x02, 0x05])).map (fun r => (r.len, r.nd, r.ni, r.skipped)) =
    some (4, 1, 1, true) := by decide
theorem test_record_operands : (stepRecord (State.load [0x83, 0x46, 0x02, 0x05])).map (fun r => (r.subop, r.dest, r.source)) =
    some (some .add, some (.effectiveAddress 6 (some 2)), .immediate 5) := by decide
/-- The flat transcription of rule R126 on GRP5. -/
theorem test_reference : (Reference.referenceStep (before [0x83, 0xC3, 0xF6] #v[0, 0, 0, 10, 0, 0, 0, 0] false false)).readReg 3
    = 0 := by decide

/-! ### Witnesses for the statements' hypotheses -/

/-- mov ax, 5 in front of a core with registers set: a running state with a whole instruction at pc. -/
def running : State := before [0xB8, 0x05, 0x00] #v[1, 2, 3, 4, 5, 6, 7, 8] true true

/-- add al, cl, whose flags and destination change. -/
def adding : State := before [0x00, 0xC8] #v[0x0001, 0x0002, 0, 0, 0, 0, 0, 0] true true

/-- Halted with HALT_EXHAUSTED at `pc` in front of these bytes. -/
def exhaustedAt (pc : Word) (bs : List Byte) : State := { State.load bs with pc := pc, status := .haltExhausted }

/-- Halted with HALT_UNRECOGNIZED at the head F4 00. -/
def unrecognizedState : State := { State.load [0xF4, 0x00] with status := .haltUnrecognized, errHead := 0xF400 }

theorem running_inv : Inv running := ⟨by decide, .inl (by decide), rfl⟩

theorem witness_DecodeOfEncode : (Instr.cmpImmRm true .word (.baseDisp16 6 300) (.imm16 10)).WellFormed := by decide
theorem witness_EncodeOfDecode : decode [0x81, 0xF9, 0x0A, 0x75] = .ok (.cmpImmRm false .word (.reg 1) (.imm8 10), [0x75]) := by rfl
theorem witness_DecodeConsumesHeadLength :
    decode [0x83, 0x46, 0x02, 0x05, 0x90] = .ok (.addImmRm true .word (.baseDisp8 6 2) (.imm8 5), [0x90]) := by rfl
theorem witness_DisplacementCounts_no_disp : (0b111#3 : RegField) ≠ 0b110#3 := by decide
theorem witness_DisplacementCounts_mods :
    (0x7F : Byte).extractLsb' 6 2 = 0b01#2 ∧ (0x80 : Byte).extractLsb' 6 2 = 0b10#2 ∧
    (0x3E : Byte).extractLsb' 6 2 = 0b00#2 ∧ (0x3E : Byte).extractLsb' 0 3 = 0b110#3 := by decide
theorem witness_GroupDataCounts :
    Machine.grpDataCount .cmp true .word = 2 ∧ Machine.grpDataCount .cmp false .word = 1 := by decide
theorem witness_ImmediateDataBytes_ir : decode [0xB8, 0x05, 0x00] = .ok (.movImmReg 0 (.imm16 5), []) ∧
    (Instr.movImmReg 0 (.imm16 5)).format = .ir 0 (.imm16 5) := ⟨rfl, rfl⟩
theorem witness_ImmediateDataBytes_ia : decode [0x04, 0x05, 0x90] = .ok (.addImmAcc (.imm8 5), [0x90]) ∧
    (Instr.addImmAcc (.imm8 5)).format = .ia .add (.imm8 5) := ⟨rfl, rfl⟩
theorem witness_ImmediateDataBytes_gi :
    decode [0x83, 0xBF, 0x01, 0x02, 0x0A, 0x00] = .ok (.cmpImmRm true .word (.baseDisp16 7 0x0201) (.imm16 10), []) ∧
    (recordOf (.cmpImmRm true .word (.baseDisp16 7 0x0201) (.imm16 10)) running).ni = 2 ∧
    (recordOf (.cmpImmRm false .word (.baseDisp16 7 0x0201) (.imm8 10)) running).ni = 1 := ⟨rfl, rfl, rfl⟩
theorem witness_WideBitGivesDataBytes_word : decode [0xB8, 0x05, 0x00, 0x75] = .ok (.movImmReg 0 (.imm16 5), [0x75]) ∧
    (0xB8 : Byte).getLsbD 3 = true ∧ (Instr.movImmReg 0 (.imm16 5)).format = .ir 0 (.imm16 5) := ⟨rfl, by decide, rfl⟩
theorem witness_WideBitGivesDataBytes_byte : decode [0x04, 0x05, 0x90] = .ok (.addImmAcc (.imm8 5), [0x90]) ∧
    (0x04 : Byte).getLsbD 0 = false ∧ (Instr.addImmAcc (.imm8 5)).format = .ia .add (.imm8 5) := ⟨rfl, by decide, rfl⟩
theorem witness_RegisterModeResolves : (0xC7 : Byte).extractLsb' 6 2 = 0b11#2 := by decide
theorem witness_ByteViewsAreHalves_low : (3 : RegField).toNat < 4 := by decide
theorem witness_ByteViewsAreHalves_high : 4 ≤ (4 : RegField).toNat := by decide
theorem witness_PresentedStreamReads : ([0xB8, 0x05, 0x00] : List Byte).length ≤ 65535 := by decide
theorem witness_CanonicalStreamsEqual :
    (Memory.ofBytes [0xB8, 0x05, 0x00]).wf = true ∧ (⟨3, [(0, 0xB8), (1, 0x05)]⟩ : Memory).wf = true ∧
    ∀ a, (Memory.ofBytes [0xB8, 0x05, 0x00]).byteAt a = (⟨3, [(0, 0xB8), (1, 0x05)]⟩ : Memory).byteAt a :=
  ⟨by decide, by decide, fun _ => rfl⟩
theorem witness_ReadOutOfEndState :
    running.status = .run ∧ (exhaustedAt 3 [0xB8, 5, 0]).status = .haltExhausted ∧
    unrecognizedState.status = .haltUnrecognized := ⟨rfl, rfl, rfl⟩
theorem witness_StepRunsDecodedInstruction : running.status = .run ∧
    decode (running.stream.bytesFrom running.pc.toNat 6) = .ok (.movImmReg 0 (.imm16 5), []) ∧
    (Instr.movImmReg 0 (.imm16 5)).WellFormed := ⟨rfl, rfl, by decide⟩
theorem witness_StepRunsEncodedInstruction : running.status = .run ∧ (Instr.movImmReg 0 (.imm16 5)).WellFormed ∧
    ∀ k, k < (encode (.movImmReg 0 (.imm16 5))).length →
      running.stream.byteAt (running.pc.toNat + k) = (encode (.movImmReg 0 (.imm16 5)))[k]? :=
  ⟨rfl, by decide, by decide⟩
theorem witness_HeadBeyondStreamExhausts :
    (State.load [0xF4]).status = .run ∧ (State.load [0xF4]).stream.size < (State.load [0xF4]).pc.toNat + 2 := by decide
theorem witness_UnmatchedHeadHalts : (State.load [0xF4, 0x00]).status = .run ∧
    (State.load [0xF4, 0x00]).stream.byteAt 0 = some 0xF4 ∧ (State.load [0xF4, 0x00]).stream.byteAt 1 = some 0x00 ∧
    classify 0xF4 0x00 = none := by decide
theorem witness_TrailingBytesExhaust : (State.load [0xB8, 0x05]).status = .run ∧
    (State.load [0xB8, 0x05]).stream.byteAt 0 = some 0xB8 ∧ (State.load [0xB8, 0x05]).stream.byteAt 1 = some 0x05 ∧
    classify 0xB8 0x05 = some .movImmReg ∧
    (State.load [0xB8, 0x05]).stream.size < (State.load [0xB8, 0x05]).pc.toNat + headLength .movImmReg 0xB8 0x05 := by
  decide
theorem witness_HaltedCoreStays : Halted unrecognizedState := by unfold Halted; decide
theorem witness_StepAnswers : step adding = .next { adding with x := #v[0x0003, 0x0002, 0, 0, 0, 0, 0, 0], pc := 2, zf := false, sf := false } := by
  rfl
theorem witness_StreamAndLatchesFrame :
    step (State.load [0xF4]) = .next { State.load [0xF4] with status := .haltExhausted } ∧
    ({ State.load [0xF4] with status := .haltExhausted } : State).status ≠ (State.load [0xF4]).status :=
  ⟨rfl, by decide⟩
theorem witness_StepKeepsInvariant : Inv running ∧
    step running = .next { running with x := #v[5, 2, 3, 4, 5, 6, 7, 8], pc := 3 } := ⟨running_inv, rfl⟩
theorem witness_StartStatesHaveInvariant : adding.stream.wf = true := by decide
theorem witness_RunKeepsStreamAndInvariant :
    Reaches (State.load [0x75, 0x00]) (State.load [0x75, 0x00]) := .step .start rfl
theorem witness_EndStateReadings_clean : Inv (exhaustedAt 3 [0xB8, 5, 0]) ∧
    (exhaustedAt 3 [0xB8, 5, 0]).status = .haltExhausted ∧ endReading (exhaustedAt 3 [0xB8, 5, 0]) = some .cleanEnd :=
  ⟨⟨by decide, .inl (by decide), rfl, rfl⟩, rfl, by decide⟩
theorem witness_EndStateReadings_truncated : Inv (exhaustedAt 0 [0xB8, 5]) ∧
    (exhaustedAt 0 [0xB8, 5]).status = .haltExhausted ∧ endReading (exhaustedAt 0 [0xB8, 5]) = some .truncated :=
  ⟨⟨by decide, .inl (by decide), rfl, rfl⟩, rfl, by decide⟩
theorem witness_EndStateReadings_past : Inv (exhaustedAt 254 [0x75, 0xFE]) ∧
    (exhaustedAt 254 [0x75, 0xFE]).status = .haltExhausted ∧
    endReading (exhaustedAt 254 [0x75, 0xFE]) = some .jumpedPastEnd :=
  ⟨⟨by decide, .inr (by decide), rfl, rfl⟩, rfl, by decide⟩
theorem witness_EndStateReadings_unrecognized : Inv unrecognizedState ∧
    unrecognizedState.status = .haltUnrecognized := ⟨⟨by decide, .inl (by decide), rfl⟩, rfl⟩
theorem witness_BytesOutsideUnread : running.status = .run ∧ running.fetch = .ok (.movImmReg 0 (.imm16 5)) ∧
    ∀ a, running.pc.toNat ≤ a → a < running.pc.toNat + (Instr.movImmReg 0 (.imm16 5)).length →
      (Memory.ofBytes [0xB8, 0x05, 0x00, 0xF4]).byteAt a = running.stream.byteAt a := by
  refine ⟨rfl, rfl, fun a _ h => ?_⟩
  have h3 : a < 3 := h
  revert a; decide
theorem witness_FlagsWrittenByArithmeticOnly : ∃ t, step adding = .next t ∧ t.zf ≠ adding.zf :=
  ⟨_, witness_StepAnswers, by decide⟩
theorem witness_RegistersWrittenByDestinationOnly : ∃ t, step adding = .next t ∧ t.readReg 0 ≠ adding.readReg 0 :=
  ⟨_, witness_StepAnswers, by decide⟩
theorem witness_RecordExplainsStep_taken :
    (stepRecord (State.load [0x75, 0xFF])).map (fun r => (r.taken, r.source)) = some (true, .immediate 255) := by decide
theorem witness_RecordExplainsStep_skipped :
    (stepRecord (State.load [0x8B, 0x07])).map (fun r => (r.taken, r.skipped)) = some (false, true) := by decide
theorem witness_RecordLengthParts : stepRecord running = some (recordOf (.movImmReg 0 (.imm16 5)) running) := by rfl
theorem witness_FlagUnitLaw : (recordOf (.addRmReg .toRm .byte 1 (.reg 0)) adding).mnemonic = .data (.alu .add) ∧
    (recordOf (.addRmReg .toRm .byte 1 (.reg 0)) adding).dest = some (.register 0 .byte) ∧
    adding.readOperand (.register 0 .byte) = some 1 ∧
    adding.readOperand (recordOf (.addRmReg .toRm .byte 1 (.reg 0)) adding).source = some 2 := by decide
theorem witness_FlagUnitLaw_cmp : (recordOf (.cmpImmAcc (.imm8 5)) adding).mnemonic = .data (.alu .cmp) ∧
    (recordOf (.cmpImmAcc (.imm8 5)) adding).dest = some (.register 0 .byte) ∧
    adding.readOperand (.register 0 .byte) = some 1 ∧
    adding.readOperand (recordOf (.cmpImmAcc (.imm8 5)) adding).source = some 5 := by decide
theorem witness_MemoryOperandsSkip : (RmField.base 7).wf = true ∧ ∀ r, RmField.base 7 ≠ .reg r :=
  ⟨by decide, fun _ h => by cases h⟩
theorem witness_MemoryOperandsSkip_direct : (RmField.direct 65535).wf = true ∧ ∀ r, RmField.direct 65535 ≠ .reg r :=
  ⟨by decide, fun _ h => by cases h⟩
theorem witness_JnzJumpsOrFallsThrough : State.reset.zf = false ∧ running.zf = true := ⟨rfl, rfl⟩

end Sys2Proof.Tests
end

section
/-! The family of 10_state.md: the state, its byte views, its invariant, and who writes and reads each part of it. The
meaning of an instruction is said once, as a function of its format (`exec_eq`); every statement about a step follows
from it by the three cases of a step (`step_result_cases`). -/

namespace Sys2Proof.Machine

/-! ### Registers and byte views -/

@[simp] theorem State.readReg_reset (r : RegField) : State.reset.readReg r = 0 := by
  simp [State.readReg, State.reset]

@[simp] theorem State.readReg_restart (s : State) (r : RegField) : s.restart.readReg r = 0 := State.readReg_reset r

theorem State.readByteReg_eq_zero {s : State} (h : ∀ r, s.readReg r = 0) (j : RegField) : s.readByteReg j = 0 := by
  unfold State.readByteReg
  rw [h]
  cases viewIsHigh j <;> rfl

/-- Views 0 to 3 are the low bytes of the cells with their own number (rule R23). -/
theorem view_low {j : RegField} (h : j.toNat < 4) : viewCell j = j ∧ viewIsHigh j = false := by
  revert j; decide

/-- Views 4 to 7 are the high bytes of the cells 0 to 3 (rule R23). -/
theorem view_high {j : RegField} (h : 4 ≤ j.toNat) : viewCell j = j - 4 ∧ viewIsHigh j = true := by
  revert j; decide

theorem viewCell_toNat (j : RegField) : (viewCell j).toNat = j.toNat % 4 := by
  revert j; decide

/-- A byte view write leaves every cell but the view's own as it was (rule R24). -/
theorem State.writeByteReg_keepsRegsBut (s : State) (j : RegField) (v : Byte) :
    KeepsRegsBut (viewCell j) s (s.writeByteReg j v) := fun r hr => by
  rw [State.readReg_writeByteReg, if_neg hr]

/-- The register that an operand's write changes is the one that the operand names: itself at w = 1, the cell of the
byte view at w = 0 (rules R22, R23). -/
theorem State.writeOperand_readReg_ne {s : State} {o : Operand} {v : Word} {n : RegField}
    (h : (s.writeOperand o v).readReg n ≠ s.readReg n) :
    ∃ j w, o = .register j w ∧ (w = .word → n = j) ∧ (w = .byte → n.toNat < 4 ∧ n.toNat = j.toNat % 4) := by
  cases o with
  | register j w =>
    refine ⟨j, w, rfl, ?_, ?_⟩
    · rintro rfl
      by_contra hn
      exact h (s.readReg_writeReg_other v hn)
    · rintro rfl
      have hn : n = viewCell j := by
        by_contra hn
        exact h (s.writeByteReg_keepsRegsBut j _ n hn)
      have := viewCell_toNat j
      subst hn
      omega
  | effectiveAddress rm d => exact absurd rfl h
  | directAddress a => exact absurd rfl h
  | immediate a => exact absurd rfl h

/-! ### The record's fields that do not depend on the state -/

@[simp] theorem recordOf_mnemonic (i : Instr) (s : State) : (recordOf i s).mnemonic = formatMnemonic i.format := rfl
@[simp] theorem recordOf_dest (i : Instr) (s : State) : (recordOf i s).dest = formatDest i.format := rfl
@[simp] theorem recordOf_skipped (i : Instr) (s : State) :
    (recordOf i s).skipped = recordSkipped (formatDest i.format) (formatSource i.format) := rfl

/-! ### The meaning of an instruction as a function of its format -/

/-- Step 9 of rule R126 for a format: a move, an arithmetic operation, or nothing for the jumps and loops. -/
def State.execute (s : State) (f : Format) : State :=
  match formatMnemonic f, formatDest f with
  | .data .mov, some dest => s.move dest (formatSource f)
  | .data (.alu op), some dest => s.arith op dest (formatSource f)
  | .data _, none => s
  | .jump _, _ => s

/-- Step 10 of rule R126: where the pointer stands after an instruction (rules R180, R181). -/
def State.nextPc (s : State) (f : Format) : Word :=
  match f with
  | .j .jnz v => if jnzTaken s then zext16 v else s.pc + BitVec.ofNat 16 (formatLength f)
  | .rm _ _ _ _ _ | .ir _ _ | .ia _ _ | .gi _ _ _ _ _ | .j _ _ => s.pc + BitVec.ofNat 16 (formatLength f)

/-- The three things that an instruction can do to registers and flags, told by its mnemonic. -/
theorem State.execute_shape (f : Format) :
    (∃ dest, formatMnemonic f = .data .mov ∧ formatDest f = some dest ∧
      ∀ s : State, s.execute f = s.move dest (formatSource f)) ∨
    (∃ op dest, formatMnemonic f = .data (.alu op) ∧ formatDest f = some dest ∧
      ∀ s : State, s.execute f = s.arith op dest (formatSource f)) ∨
    ∀ s : State, s.execute f = s := by
  cases f with
  | rm op d w reg rm =>
    cases op with
    | mov => exact .inl ⟨_, rfl, rfl, fun _ => rfl⟩
    | alu op => exact .inr (.inl ⟨op, _, rfl, rfl, fun _ => rfl⟩)
  | ir reg imm => exact .inl ⟨_, rfl, rfl, fun _ => rfl⟩
  | ia op imm => exact .inr (.inl ⟨op, _, rfl, rfl, fun _ => rfl⟩)
  | gi op sign w rm imm => exact .inr (.inl ⟨op, _, rfl, rfl, fun _ => rfl⟩)
  | j c v => exact .inr (.inr fun _ => rfl)

/-- The pointer goes to a taken jnz's target or past the instruction's bytes. -/
theorem State.nextPc_cases (s : State) (f : Format) :
    (∃ v : Byte, s.nextPc f = zext16 v) ∨ s.nextPc f = s.pc + BitVec.ofNat 16 (formatLength f) := by
  unfold State.nextPc
  split
  · next v =>
    split
    · exact .inl ⟨v, rfl⟩
    · exact .inr rfl
  all_goals exact .inr rfl

/-- A move leaves the pointer to the advance (rule R180). -/
theorem runMove_eq (dest source : Operand) (len : Nat) (s : State) :
    runMove dest source len s = .next ((s.move dest source).setPc (s.pc + BitVec.ofNat 16 len)) := by
  rw [runMove, State.advance, (s.move_frame dest source).1]

/-- An add, sub or cmp leaves the pointer to the advance (rule R180). -/
theorem runArith_eq (op : AluOp) (dest source : Operand) (len : Nat) (s : State) :
    runArith op dest source len s = .next ((s.arith op dest source).setPc (s.pc + BitVec.ofNat 16 len)) := by
  rw [runArith, State.advance, (s.arith_frame op dest source).1]

/-- An instruction changes registers and flags by `execute` and then writes the pointer (steps 9 and 10 of rule R126). -/
theorem exec_eq (i : Instr) (s : State) :
    exec i s = .next ((s.execute i.format).setPc (s.nextPc i.format)) := by
  cases i with
  | movRmReg d w reg rm => exact runMove_eq _ _ _ s
  | movImmReg reg imm => exact runMove_eq _ _ _ s
  | addRmReg d w reg rm => exact runArith_eq _ _ _ _ s
  | addImmAcc imm => exact runArith_eq _ _ _ _ s
  | subRmReg d w reg rm => exact runArith_eq _ _ _ _ s
  | subImmAcc imm => exact runArith_eq _ _ _ _ s
  | cmpRmReg d w reg rm => exact runArith_eq _ _ _ _ s
  | cmpImmAcc imm => exact runArith_eq _ _ _ _ s
  | addImmRm sign w rm imm => exact runArith_eq _ _ _ _ s
  | subImmRm sign w rm imm => exact runArith_eq _ _ _ _ s
  | cmpImmRm sign w rm imm => exact runArith_eq _ _ _ _ s
  | jnz v =>
    show execJnz v s = .next (s.setPc (if jnzTaken s then zext16 v else s.pc + BitVec.ofNat 16 2))
    unfold execJnz
    split <;> rfl
  | _ => rfl

/-- Executing leaves the pointer, the latches and the stream as they were. -/
theorem State.execute_frame (s : State) (f : Format) :
    (s.execute f).pc = s.pc ∧ (s.execute f).status = s.status ∧ (s.execute f).errHead = s.errHead ∧
    (s.execute f).stream = s.stream := by
  rcases State.execute_shape f with ⟨dest, _, _, he⟩ | ⟨op, dest, _, _, he⟩ | he
  · obtain ⟨hpc, _, _, hstatus, herr, hstream⟩ := s.move_frame dest (formatSource f)
    rw [he]
    exact ⟨hpc, hstatus, herr, hstream⟩
  · rw [he]
    exact s.arith_frame op dest (formatSource f)
  · rw [he]
    exact ⟨rfl, rfl, rfl, rfl⟩

/-- A flag that executing changes is changed by an add, sub or cmp that is not skipped (rule R29). -/
theorem State.execute_flags_ne {s : State} {f : Format}
    (h : (s.execute f).zf ≠ s.zf ∨ (s.execute f).sf ≠ s.sf) :
    ∃ op, formatMnemonic f = .data (.alu op) ∧ recordSkipped (formatDest f) (formatSource f) = false := by
  rcases State.execute_shape f with ⟨dest, _, _, he⟩ | ⟨op, dest, hm, hd, he⟩ | he <;> rw [he] at h
  · obtain ⟨_, hz, hf, _⟩ := s.move_frame dest (formatSource f)
    simp [hz, hf] at h
  · refine ⟨op, hm, ?_⟩
    rcases s.arith_cases op dest (formatSource f) with ⟨_, ha⟩ | ⟨hs, _⟩
    · simp [ha] at h
    · simpa [hd, recordSkipped] using hs
  · simp at h

/-- A register that executing changes is the register destination of a mov, add or sub that is not skipped (rule
R22). -/
theorem State.execute_readReg_ne {s : State} {f : Format} {n : RegField}
    (h : (s.execute f).readReg n ≠ s.readReg n) :
    recordSkipped (formatDest f) (formatSource f) = false ∧
    (formatMnemonic f = .data .mov ∨ formatMnemonic f = .data (.alu .add) ∨ formatMnemonic f = .data (.alu .sub)) ∧
    ∃ j w, formatDest f = some (.register j w) ∧
      (w = .word → n = j) ∧ (w = .byte → n.toNat < 4 ∧ n.toNat = j.toNat % 4) := by
  rcases State.execute_shape f with ⟨dest, hm, hd, he⟩ | ⟨op, dest, hm, hd, he⟩ | he <;> rw [he] at h
  · rcases s.move_cases dest (formatSource f) with ⟨_, ha⟩ | ⟨hs, v, _, ha⟩ <;> rw [ha] at h
    · exact absurd rfl h
    · obtain ⟨j, w, rfl, hj⟩ := State.writeOperand_readReg_ne h
      exact ⟨by simpa [hd, recordSkipped] using hs, .inl hm, j, w, hd, hj⟩
  · rcases s.arith_cases op dest (formatSource f) with ⟨_, ha⟩ | ⟨hs, a, b, _, _, ha⟩ <;> rw [ha] at h
    · exact absurd rfl h
    · cases hw : writesBack op with
      | false => simp [hw] at h
      | true =>
        simp only [hw, if_true] at h
        obtain ⟨j, w, rfl, hj⟩ := State.writeOperand_readReg_ne h
        have hop : op = .add ∨ op = .sub := by cases op <;> simp_all [writesBack]
        refine ⟨by simpa [hd, recordSkipped] using hs, .inr ?_, j, w, hd, hj⟩
        rcases hop with rfl | rfl
        · exact .inl hm
        · exact .inr hm
  · exact absurd rfl h

/-! ### A step, by its three cases -/

/-- Everything a step can do, with the next state written out and its record (rule R126). -/
theorem step_result_cases {s t : State} (h : step s = .next t) :
    (s.status ≠ .run ∧ t = s) ∨
    (s.status = .run ∧ ∃ f, s.fetch = .error f ∧ t = s.raise f) ∨
    (s.status = .run ∧ ∃ i, s.fetch = .ok i ∧ stepRecord s = some (recordOf i s) ∧
      t = (s.execute i.format).setPc (s.nextPc i.format)) := by
  rcases step_cases h with hhalt | hfail | ⟨hrun, i, hi, he⟩
  · exact .inl hhalt
  · exact .inr (.inl hfail)
  · rw [exec_eq] at he
    cases he
    exact .inr (.inr ⟨hrun, i, hi, by simp [stepRecord, hrun, hi], rfl⟩)

/-- A failing step halts the core (rules R211, R212). -/
theorem failureStatus_ne_run (f : Failure) : failureStatus f ≠ .run := by cases f <;> simp [failureStatus]

/-! ### The length of what is fetched -/

/-- The displacement that the decoder reads has as many bytes as the head says (rule R85). -/
theorem rmDispCount_decodeRmField (b1 : Byte) (bs : List Byte) :
    rmDispCount (decodeRmField b1 bs) = headDispCount b1 := by
  unfold decodeRmField headDispCount
  generalize field b1 0 3 = rm
  have hmod : ∀ m : BitVec 2, m = 0b11#2 ∨ m = 0b01#2 ∨ m = 0b10#2 ∨ m = 0b00#2 := by decide
  rcases hmod (field b1 6 2) with h | h | h | h <;> by_cases hrm : rm = 0b110#3 <;>
    simp [h, hrm, rmDispCount, dispCount, modBits, rmBits]

theorem immCount_decodeImm {n : Nat} (h : n = 1 ∨ n = 2) (a : Nat) (bs : List Byte) :
    immCount (decodeImm n a bs) = n := by
  rcases h with rfl | rfl <;> rfl

theorem dataCount_one_or_two (w : Width) : dataCount w = 1 ∨ dataCount w = 2 := by cases w <;> simp [dataCount]

theorem grpDataCount_one_or_two (op : AluOp) (s : Bool) (w : Width) :
    grpDataCount op s w = 1 ∨ grpDataCount op s w = 2 := by
  revert s; cases op <;> cases w <;> decide

/-- The fields that the decoder reads make an instruction as long as its head says (rules R90, R91). -/
theorem formatLength_decodeFields (k : Kind) (b0 b1 : Byte) (bs : List Byte) :
    formatLength (decodeFields k b0 b1 bs) = headLength k b0 b1 := by
  cases k with
  | rmReg op => simp [decodeFields, formatLength, headLength, rmDispCount_decodeRmField]
  | movImmReg =>
    exact congrArg (1 + ·) (immCount_decodeImm (dataCount_one_or_two _) 1 bs)
  | immAcc op =>
    exact congrArg (1 + ·) (immCount_decodeImm (dataCount_one_or_two _) 1 bs)
  | grpImmRm op =>
    have hi := immCount_decodeImm (grpDataCount_one_or_two op (bit b0 1) (widthOf (bit b0 0))) (2 + headDispCount b1) bs
    simp [decodeFields, formatLength, headLength, headDataCount, rmDispCount_decodeRmField, hi]
  | jcc c => rfl

/-- A fetched instruction lies inside the stream, all its bytes (rules R28, R123). -/
theorem State.fetch_ok_inside {s : State} {i : Instr} (h : s.fetch = .ok i) :
    s.pc.toNat + formatLength i.format ≤ s.stream.size := by
  obtain ⟨rest, hd⟩ := (s.fetch_ok_iff i).1 h
  obtain ⟨b0, b1, tl, k, hbs, _, hlen, rfl, _⟩ := decode_ok_cases hd
  have hwindow : s.fetchWindow.length = min 6 (s.stream.size - s.pc.toNat) := Memory.bytesFrom_length _ _ _
  have hhead : 2 ≤ s.fetchWindow.length := by simp [hbs]
  rw [Format.format_toInstr, formatLength_decodeFields]
  omega

/-- After a fetched instruction the pointer is in range (rules R28, R180, R181). -/
theorem State.nextPc_inRange {s : State} {i : Instr} (h : s.fetch = .ok i) :
    (s.nextPc i.format).toNat ≤ s.stream.size ∨ (s.nextPc i.format).toNat ≤ 255 := by
  rcases s.nextPc_cases i.format with ⟨v, hv⟩ | ha
  · have := v.isLt
    rw [hv, zext16_toNat]
    omega
  · have hin := State.fetch_ok_inside h
    have hsum := Nat.mod_le (s.pc.toNat + formatLength i.format) (2 ^ 16)
    rw [ha]
    simp only [BitVec.toNat_add, BitVec.toNat_ofNat, Nat.add_mod_mod]
    omega

/-! ### The invariant -/

/-- Taking the failure that the fetch reports makes the latches agree with it (rules R211, R212). -/
theorem State.raise_latchesAgree {s : State} {f : Failure} (h : s.fetch = .error f) : LatchesAgree (s.raise f) := by
  cases f with
  | streamExhausted => exact ⟨rfl, h⟩
  | unrecognizedOpcode head => exact h

/-- Settles O24: a halted step changes nothing, a failing step latches its own failure, and an executed instruction lies
in the stream, so that the pointer is at most at its end or at the target of a jnz. -/
theorem stepKeepsInvariant : Obligations.StepKeepsInvariant := by
  intro s t hinv h
  obtain ⟨hwf, hpc, hlatch⟩ := hinv
  rcases step_result_cases h with ⟨_, rfl⟩ | ⟨_, f, hf, rfl⟩ | ⟨hrun, i, hi, _, rfl⟩
  · exact ⟨hwf, hpc, hlatch⟩
  · exact ⟨hwf, hpc, State.raise_latchesAgree hf⟩
  · obtain ⟨_, hstatus, herr, hstream⟩ := s.execute_frame i.format
    have herr0 : s.errHead = 0 := by simpa [LatchesAgree, hrun] using hlatch
    refine ⟨by simpa [hstream] using hwf, ?_, ?_⟩
    · simpa [PcInRange, hstream] using State.nextPc_inRange hi
    · simp [LatchesAgree, hstatus, hrun, herr, herr0]

/-- A running state at the entry point with nothing latched has the invariant for every canonical stream (rule R35). -/
theorem inv_of_entryPoint {s : State} (hwf : s.stream.wf = true) (hpc : s.pc = 0) (hrun : s.status = .run)
    (herr : s.errHead = 0) : Inv s :=
  ⟨hwf, .inl (by simp [hpc]), by simpa [LatchesAgree, hrun] using herr⟩

/-- Settles O25: all three start at the entry point, in front of a canonical stream. -/
theorem startStatesHaveInvariant : Obligations.StartStatesHaveInvariant :=
  ⟨inv_of_entryPoint Memory.empty_wf rfl rfl rfl,
    fun bs => inv_of_entryPoint (s := State.load bs) (Memory.ofBytes_wf bs) rfl rfl rfl,
    fun s hwf => inv_of_entryPoint (s := s.restart) hwf rfl rfl rfl⟩

/-! ### Byte views, reset and read-out -/

/-- Settles O12, by the cell and the half that each view number names. -/
theorem byteViewsAreHalves : Obligations.ByteViewsAreHalves := by
  intro s j v
  have hframe := s.writeByteReg_keepsRegsBut j v
  refine ⟨fun hj => ?_, fun hj => ?_⟩
  · obtain ⟨hcell, hhalf⟩ := view_low hj
    rw [hcell] at hframe
    refine ⟨?_, ?_, hframe⟩
    · simp [State.readByteReg, hcell, hhalf, lowByte_toNat]
    · simp [State.readReg_writeByteReg, hcell, hhalf, join_toNat, highByte_toNat]
  · obtain ⟨hcell, hhalf⟩ := view_high hj
    rw [hcell] at hframe
    refine ⟨?_, ?_, hframe⟩
    · simp [State.readByteReg, hcell, hhalf, highByte_toNat]
    · simp [State.readReg_writeByteReg, hcell, hhalf, join_toNat, lowByte_toNat]

/-- Settles O11: a byte view is 0 because its cell is. -/
theorem resetValues : Obligations.ResetValues := by
  intro s
  refine ⟨?_, rfl⟩
  rintro t (rfl | rfl)
  · exact ⟨State.readReg_reset, State.readByteReg_eq_zero State.readReg_reset, rfl, rfl, rfl, rfl, rfl, rfl⟩
  · exact ⟨s.readReg_restart, State.readByteReg_eq_zero s.readReg_restart, rfl, rfl, rfl, rfl, rfl, rfl⟩

/-- Settles O15, by the three values of STATUS. -/
theorem readOutOfEndState : Obligations.ReadOutOfEndState := by
  intro s
  refine ⟨fun h => ?_, fun h => ?_, fun h => ?_⟩ <;> simp [State.readOut, h, statusCode]

/-! ### What a step writes -/

/-- Settles O23: only a failing step reaches the latches. -/
theorem streamAndLatchesFrame : Obligations.StreamAndLatchesFrame := by
  intro s t h
  rcases step_result_cases h with ⟨_, rfl⟩ | ⟨hrun, f, hf, rfl⟩ | ⟨_, i, _, _, rfl⟩
  · exact ⟨rfl, fun _ => rfl, fun hne => by simp at hne⟩
  · exact ⟨rfl, fun _ => rfl, fun _ =>
      ⟨hrun, failureStatus_ne_run f, ⟨f, hf, rfl⟩, fun _ => rfl, ⟨rfl, rfl⟩, rfl⟩⟩
  · obtain ⟨_, hstatus, herr, hstream⟩ := s.execute_frame i.format
    exact ⟨hstream, fun a => congrArg (·.byteAt a) hstream, fun hne => by simp [hstatus, herr] at hne⟩

/-- Settles O32: halted and failing steps keep the flags, and executing changes them for the ALU's mnemonics alone. -/
theorem flagsWrittenByArithmeticOnly : Obligations.FlagsWrittenByArithmeticOnly := by
  intro s t h hne
  rcases step_result_cases h with ⟨_, rfl⟩ | ⟨_, f, _, rfl⟩ | ⟨_, i, _, hrec, rfl⟩
  · simp at hne
  · simp at hne
  · obtain ⟨op, hm, hs⟩ := State.execute_flags_ne (by simpa using hne)
    exact ⟨_, op, hrec, (recordOf_mnemonic i s).trans hm, (recordOf_skipped i s).trans hs⟩

/-- Settles O33: halted and failing steps keep the registers, and executing changes the destination alone. -/
theorem registersWrittenByDestinationOnly : Obligations.RegistersWrittenByDestinationOnly := by
  intro s t n h hne
  rcases step_result_cases h with ⟨_, rfl⟩ | ⟨_, f, _, rfl⟩ | ⟨_, i, _, hrec, rfl⟩
  · exact absurd rfl hne
  · exact absurd rfl hne
  · obtain ⟨hs, hm, j, w, hd, hj⟩ := State.execute_readReg_ne (by simpa using hne)
    exact ⟨_, j, w, hrec, (recordOf_skipped i s).trans hs, by simpa using hm, (recordOf_dest i s).trans hd, hj⟩

/-! ### What a step does not read -/

theorem step_of_halted {s : State} (h : s.status ≠ .run) : step s = .next s := by
  unfold step
  cases hs : s.status with
  | run => exact absurd hs h
  | haltExhausted => rfl
  | haltUnrecognized => rfl

theorem step_of_fetch_error {s : State} {f : Failure} (hrun : s.status = .run) (hf : s.fetch = .error f) :
    step s = .next (s.raise f) := by
  simp [step, hrun, hf]

theorem step_of_fetch_ok {s : State} {i : Instr} (hrun : s.status = .run) (hi : s.fetch = .ok i) :
    step s = .next ((s.execute i.format).setPc (s.nextPc i.format)) := by
  simp [step, hrun, hi, exec_eq]

/-- The state with other registers and another SF. -/
def State.withRegsAndSign (s : State) (x : Vector Word 8) (f : Bool) : State := { s with x := x, sf := f }

@[simp] theorem State.fetch_withRegsAndSign (s : State) (x : Vector Word 8) (f : Bool) :
    (s.withRegsAndSign x f).fetch = s.fetch := rfl

/-- The pointer's next value depends on neither registers nor SF: jnz reads ZF alone (rule R181). -/
@[simp] theorem State.nextPc_withRegsAndSign (s : State) (x : Vector Word 8) (f : Bool) (g : Format) :
    (s.withRegsAndSign x f).nextPc g = s.nextPc g := rfl

@[simp] theorem stepRecord_withRegsAndSign (s : State) (x : Vector Word 8) (f : Bool) :
    stepRecord (s.withRegsAndSign x f) = stepRecord s := rfl

/-- A step from other registers and another SF is the same one of the three cases, with the same failure or the same
instruction. -/
theorem step_withRegsAndSign_cases {s t : State} (h : step s = .next t) (x : Vector Word 8) (f : Bool) :
    (t = s ∧ step (s.withRegsAndSign x f) = .next (s.withRegsAndSign x f)) ∨
    (∃ e, t = s.raise e ∧ step (s.withRegsAndSign x f) = .next ((s.withRegsAndSign x f).raise e)) ∨
    (∃ g, t = (s.execute g).setPc (s.nextPc g) ∧
      step (s.withRegsAndSign x f) = .next (((s.withRegsAndSign x f).execute g).setPc (s.nextPc g))) := by
  rcases step_cases h with ⟨hhalt, rfl⟩ | ⟨hrun, e, he, rfl⟩ | ⟨hrun, i, hi, hexec⟩
  · exact .inl ⟨rfl, step_of_halted hhalt⟩
  · exact .inr (.inl ⟨e, rfl, step_of_fetch_error hrun ((s.fetch_withRegsAndSign x f).trans he)⟩)
  · rw [exec_eq] at hexec
    cases hexec
    have hu := step_of_fetch_ok (s := s.withRegsAndSign x f) hrun ((s.fetch_withRegsAndSign x f).trans hi)
    rw [State.nextPc_withRegsAndSign] at hu
    exact .inr (.inr ⟨i.format, rfl, hu⟩)

/-- Settles O30: fetch, failure and the pointer's next value depend on neither registers nor SF, and executing writes no
latch. -/
theorem registersAndSignDoNotSteer : Obligations.RegistersAndSignDoNotSteer := by
  intro s t x f h
  refine ⟨stepRecord_withRegsAndSign s x f, ?_⟩
  rcases step_withRegsAndSign_cases h x f with ⟨rfl, hu⟩ | ⟨e, rfl, hu⟩ | ⟨g, rfl, hu⟩
  · exact ⟨_, hu, rfl, rfl, rfl, rfl⟩
  · exact ⟨_, hu, rfl, rfl, rfl, rfl⟩
  · obtain ⟨_, hstatus, herr, hstream⟩ := s.execute_frame g
    obtain ⟨_, hstatus', herr', hstream'⟩ := (s.withRegsAndSign x f).execute_frame g
    exact ⟨_, hu, rfl, hstatus'.trans hstatus.symm, herr'.trans herr.symm, hstream'.trans hstream.symm⟩

/-! ### The sign flag -/

/-- The state with another SF. -/
def State.withSign (s : State) (f : Bool) : State := { s with sf := f }

@[simp] theorem State.withSign_self (s : State) : s.withSign s.sf = s := rfl

/-- No operand is the sign flag (rule R29). -/
theorem State.readOperand_withSign (s : State) (f : Bool) (o : Operand) :
    (s.withSign f).readOperand o = s.readOperand o := by
  cases o with
  | register n w => cases w <;> rfl
  | effectiveAddress rm d => rfl
  | directAddress a => rfl
  | immediate a => rfl

theorem State.writeOperand_withSign (s : State) (f : Bool) (o : Operand) (v : Word) :
    (s.withSign f).writeOperand o v = (s.writeOperand o v).withSign f := by
  cases o with
  | register n w =>
    cases w with
    | word => rfl
    | byte =>
      simp only [State.writeOperand_byte, State.writeByteReg]
      split <;> rfl
  | effectiveAddress rm d => rfl
  | directAddress a => rfl
  | immediate a => rfl

theorem State.move_withSign (s : State) (f : Bool) (dest source : Operand) :
    (s.withSign f).move dest source = (s.move dest source).withSign f := by
  unfold State.move
  rw [State.readOperand_withSign]
  split
  · rfl
  · split
    · exact s.writeOperand_withSign f dest _
    · rfl

/-- An add, sub or cmp either is skipped and keeps SF or overwrites it. -/
theorem State.arith_withSign (s : State) (f : Bool) (op : AluOp) (dest source : Operand) :
    ∃ g, (s.withSign f).arith op dest source = (s.arith op dest source).withSign g := by
  unfold State.arith
  rw [State.readOperand_withSign, State.readOperand_withSign]
  split
  · exact ⟨f, rfl⟩
  · split
    · exact ⟨_, (State.withSign_self _).symm⟩
    · exact ⟨f, rfl⟩

theorem State.execute_withSign (s : State) (f : Bool) (g : Format) :
    ∃ b, (s.withSign f).execute g = (s.execute g).withSign b := by
  rcases State.execute_shape g with ⟨dest, _, _, he⟩ | ⟨op, dest, _, _, he⟩ | he <;> rw [he, he]
  · exact ⟨f, s.move_withSign f dest _⟩
  · exact s.arith_withSign f op dest _
  · exact ⟨f, rfl⟩

/-- The step from another SF answers the same state but for SF (rule R29). -/
theorem step_withSign {s t : State} (h : step s = .next t) (f : Bool) :
    ∃ b, step (s.withSign f) = .next (t.withSign b) := by
  rcases step_withRegsAndSign_cases h s.x f with ⟨rfl, hu⟩ | ⟨e, rfl, hu⟩ | ⟨g, rfl, hu⟩
  · exact ⟨f, hu⟩
  · exact ⟨f, hu⟩
  · obtain ⟨b, hb⟩ := s.execute_withSign f g
    have hu : step (s.withSign f) = .next (((s.withSign f).execute g).setPc (s.nextPc g)) := hu
    rw [hb] at hu
    exact ⟨b, hu⟩

/-- Settles O31: two states that differ in SF alone agree on everything that the statement lists. -/
theorem signFlagUnread : Obligations.SignFlagUnread := by
  intro s t f h
  obtain ⟨b, hu⟩ := step_withSign h f
  exact ⟨t.withSign b, hu, fun _ => rfl, rfl, rfl, rfl, rfl, rfl⟩

end Sys2Proof.Machine
end

section
/-! The family of 20_memory.md: a presented stream read back, the canonical form of streams, the runs of a presented
stream, and the order and place of the data bytes. -/

namespace Sys2Proof.Machine

/-! ### Presenting a stream -/

/-- What presenting a list of bytes does to every read: inside the stream, the offsets that the list covers read as the
list; every other offset reads as before. -/
theorem Memory.byteAt_putList {m : Memory} (h : m.wf = true) (a b : Nat) (vs : List Byte) :
    (m.putList a vs).byteAt b =
      if a ≤ b ∧ b < a + vs.length ∧ b < m.size then vs[b - a]? else m.byteAt b := by
  induction vs generalizing m a with
  | nil =>
    have hnone : ¬ (a ≤ b ∧ b < a + ([] : List Byte).length ∧ b < m.size) := by
      simp only [List.length_nil]; omega
    rw [if_neg hnone, Memory.putList]
  | cons v vs ih =>
    rw [Memory.putList, ih (Memory.put_wf h a v), Memory.byteAt_put h, Memory.put_size, List.length_cons]
    rcases Nat.lt_trichotomy b a with hb | rfl | hb
    · rw [if_neg (by omega), if_neg (by omega), if_neg (by omega)]
    · by_cases hs : b < m.size <;> simp [hs]
    · have hidx : b - a = b - (a + 1) + 1 := by omega
      have hcov : (a + 1 ≤ b ∧ b < a + 1 + vs.length ∧ b < m.size) ↔
          (a ≤ b ∧ b < a + (vs.length + 1) ∧ b < m.size) := by omega
      rw [hidx, List.getElem?_cons_succ, if_neg (c := b = a ∧ b < m.size) (by omega)]
      simp only [hcov]

/-- The stream presented has `N` = the number of bytes, as far as 65535 of them (rule R50). -/
theorem Memory.ofBytes_size (bs : List Byte) : (Memory.ofBytes bs).size = min bs.length 65535 := by
  rw [Memory.ofBytes, Memory.putList_size, Memory.grow_size]
  exact Nat.zero_max _

/-- An offset of a presented stream reads as the list's byte there, where the stream reaches so far. -/
theorem Memory.byteAt_ofBytes (bs : List Byte) (a : Nat) :
    (Memory.ofBytes bs).byteAt a = if a < 65535 then bs[a]? else none := by
  by_cases ha : a < (Memory.ofBytes bs).size
  · have hN : a < min bs.length 65535 := by rwa [Memory.ofBytes_size] at ha
    have hgrown : a < (Memory.empty.grow bs.length).size := by rwa [Memory.ofBytes, Memory.putList_size] at ha
    rw [Memory.ofBytes, Memory.byteAt_putList (Memory.grow_wf Memory.empty_wf _), if_pos (by omega), if_pos (by omega),
      Nat.sub_zero]
  · rw [Memory.byteAt, if_neg ha]
    rw [Memory.ofBytes_size] at ha
    split
    · exact (List.getElem?_eq_none (by omega)).symm
    · rfl

/-- Settles O13: a list of at most 65535 bytes is presented whole. -/
theorem presentedStreamReads : Obligations.PresentedStreamReads := by
  intro bs hbs
  refine ⟨(Memory.ofBytes_size bs).trans (Nat.min_eq_left hbs), fun a => ?_⟩
  rw [Memory.byteAt_ofBytes]
  split
  · rfl
  · exact (List.getElem?_eq_none (by omega)).symm

/-! ### The canonical form -/

theorem cellsWf_cons {lo hi a : Nat} {v : Byte} {cs : List Host.Cell} :
    cellsWf lo hi ((a, v) :: cs) = true ↔
      lo ≤ a ∧ a < hi ∧ v ≠ Config.unlistedByte ∧ cellsWf (a + 1) hi cs = true := by
  simp [cellsWf, and_assoc]

/-- The first listed offset of a canonical list is the first that does not read as the unlisted byte, so a list with the
same reads lists an offset at or below it. -/
theorem first_listed_le {lo hi a b : Nat} {v u : Byte} {cs ds : List Host.Cell}
    (hc : cellsWf lo hi ((a, v) :: cs) = true) (hd : cellsWf lo hi ((b, u) :: ds) = true)
    (h : ∀ x < hi, lookupCell x ((a, v) :: cs) = lookupCell x ((b, u) :: ds)) : b ≤ a := by
  obtain ⟨_, hahi, hv, _⟩ := cellsWf_cons.1 hc
  obtain ⟨_, hbhi, hu, hds⟩ := cellsWf_cons.1 hd
  by_contra hlt
  have hbelow : lookupCell a ((b, u) :: ds) = Config.unlistedByte :=
    lookupCell_below (cellsWf_cons.2 ⟨Nat.le_refl b, hbhi, hu, hds⟩) (by omega)
  exact hv (by simpa [lookupCell] using (h a hahi).trans hbelow)

/-- Canonical lists that read the same inside their bound are the same list (log entry 3). -/
theorem cellsWf_ext {lo hi : Nat} {cs ds : List Host.Cell} (hc : cellsWf lo hi cs = true)
    (hd : cellsWf lo hi ds = true) (h : ∀ x < hi, lookupCell x cs = lookupCell x ds) : cs = ds := by
  induction cs generalizing lo ds with
  | nil =>
    match ds, hd with
    | [], _ => rfl
    | (b, u) :: ds, hd =>
      obtain ⟨_, hb, hu, _⟩ := cellsWf_cons.1 hd
      exact absurd (by simpa [lookupCell] using (h b hb).symm) hu
  | cons c cs ih =>
    obtain ⟨a, v⟩ := c
    obtain ⟨_, ha, hv, hcs⟩ := cellsWf_cons.1 hc
    match ds, hd with
    | [], _ => exact absurd (by simpa [lookupCell] using h a ha) hv
    | (b, u) :: ds, hd =>
      obtain rfl : a = b :=
        Nat.le_antisymm (first_listed_le hd hc fun x hx => (h x hx).symm) (first_listed_le hc hd h)
      obtain ⟨_, _, _, hds⟩ := cellsWf_cons.1 hd
      have huv : v = u := by simpa [lookupCell] using h a ha
      have htail : ∀ x < hi, lookupCell x cs = lookupCell x ds := by
        intro x hx
        by_cases hxa : x ≤ a
        · rw [lookupCell_below hcs (by omega), lookupCell_below hds (by omega)]
        · simpa [lookupCell, show x ≠ a by omega] using h x hx
      rw [huv, ih hcs hds htail]

/-- Streams that are present at the same offsets have the same length. -/
theorem Memory.size_eq_of_byteAt_eq {m m' : Memory} (h : ∀ a, m.byteAt a = m'.byteAt a) : m.size = m'.size := by
  have hiff : ∀ a, a < m.size ↔ a < m'.size := fun a => by
    have := congrArg Option.isSome (h a)
    simpa [Memory.byteAt_isSome] using this
  have := hiff m.size
  have := hiff m'.size
  omega

/-- Settles O14: the reads give the length by where they are absent, and the list of cells by their bytes. -/
theorem canonicalStreamsEqual : Obligations.CanonicalStreamsEqual := by
  intro m m' hm hm' h
  have hsize := Memory.size_eq_of_byteAt_eq h
  have hlook : ∀ a < m.size, lookupCell a m.cells = lookupCell a m'.cells := fun a ha => by
    simpa [Memory.byteAt, ha, ← hsize] using h a
  have hlen : m.length = m'.length := BitVec.eq_of_toNat_eq hsize
  have hcells : m.cells = m'.cells := cellsWf_ext hm (by rwa [Memory.wf, ← hsize] at hm') hlook
  cases m
  cases m'
  exact congrArg₂ Memory.mk hlen hcells

/-! ### Runs -/

/-- What holds at the start of a run and is kept by every step holds of every state that the run reaches. -/
theorem reaches_keeps {P : State → Prop} {s t : State} (h : Reaches s t) (hstart : P s)
    (hstep : ∀ t u, P t → step t = .next u → P u) : P t := by
  induction h with
  | start => exact hstart
  | step _ htu ih => exact hstep _ _ ih htu

/-- Settles O26: every step keeps the invariant and the stream. -/
theorem runKeepsStreamAndInvariant : Obligations.RunKeepsStreamAndInvariant := by
  intro bs t h
  obtain ⟨_, hload, _⟩ := startStatesHaveInvariant
  refine ⟨reaches_keeps h (hload bs) stepKeepsInvariant, ?_⟩
  refine reaches_keeps h (P := fun t => ∀ a, t.stream.byteAt a = (Memory.ofBytes bs).byteAt a) (fun _ => rfl) ?_
  intro t u ht htu a
  obtain ⟨_, hstream, _⟩ := streamAndLatchesFrame t u htu
  exact (hstream a).trans (ht a)

/-! ### Immediate data bytes -/

/-- The bytes `bs` hold the data bytes of an immediate at position `a`, the low byte first (rule R53). -/
def DataBytesAt (bs : List Byte) (a : Nat) : Imm → Prop
  | .imm8 v => bs[a]? = some v
  | .imm16 v => ∃ lo hi, bs[a]? = some lo ∧ bs[a + 1]? = some hi ∧ v = hi ++ lo

/-- Data bytes with a count of 1 are the one byte of an immediate; with a count of 2, its low and its high byte. -/
theorem DataBytesAt.byCount {bs : List Byte} {a : Nat} {imm : Imm} (h : DataBytesAt bs a imm) :
    (immCount imm = 1 → ∃ v, bs[a]? = some v ∧ imm = .imm8 v) ∧
    (immCount imm = 2 → ∃ lo hi, bs[a]? = some lo ∧ bs[a + 1]? = some hi ∧ imm = .imm16 (hi ++ lo)) := by
  cases imm with
  | imm8 v => exact ⟨fun _ => ⟨v, h, rfl⟩, fun hc => by simp [immCount] at hc⟩
  | imm16 v =>
    obtain ⟨lo, hi, hlo, hhi, rfl⟩ := h
    exact ⟨fun hc => by simp [immCount] at hc, fun _ => ⟨lo, hi, hlo, hhi, rfl⟩⟩

theorem getElem?_eq_byteAtPos {bs : List Byte} {a : Nat} (h : a < bs.length) : bs[a]? = some (byteAtPos bs a) := by
  simp [byteAtPos, h]

/-- The decoder's immediate is read from the data bytes at its position, where they are all present (rules R53, R89). -/
theorem dataBytesAt_decodeImm {n a : Nat} {bs : List Byte} (hn : n = 1 ∨ n = 2) (hlen : a + n ≤ bs.length) :
    DataBytesAt bs a (decodeImm n a bs) := by
  rcases hn with rfl | rfl
  · exact getElem?_eq_byteAtPos (by omega)
  · exact ⟨_, _, getElem?_eq_byteAtPos (by omega), getElem?_eq_byteAtPos (by omega), rfl⟩

/-- In formats IR and IA the data bytes stand right after the opcode byte (rule R87). -/
theorem decode_plainImm {bs rest : List Byte} {i : Instr} {reg : RegField} {op : AluOp} {imm : Imm}
    (h : decode bs = .ok (i, rest)) (hf : i.format = .ir reg imm ∨ i.format = .ia op imm) : DataBytesAt bs 1 imm := by
  obtain ⟨b0, b1, tl, k, _, _, hlen, rfl, _⟩ := decode_ok_cases h
  rw [Format.format_toInstr] at hf
  cases k with
  | movImmReg =>
    obtain ⟨_, rfl⟩ : _ ∧ decodeImm _ 1 bs = imm := by simpa [decodeFields] using hf
    exact dataBytesAt_decodeImm (dataCount_one_or_two _) hlen
  | immAcc op' =>
    obtain ⟨_, rfl⟩ : _ ∧ decodeImm _ 1 bs = imm := by simpa [decodeFields] using hf
    exact dataBytesAt_decodeImm (dataCount_one_or_two _) hlen
  | rmReg op' => simp [decodeFields] at hf
  | grpImmRm op' => simp [decodeFields] at hf
  | jcc c => simp [decodeFields] at hf

/-- In format GI the data bytes stand after the displacement, as many as rule R88 says. -/
theorem decode_groupImm {bs rest : List Byte} {i : Instr} {op : AluOp} {sign : Bool} {w : Width} {rm : RmField}
    {imm : Imm} (h : decode bs = .ok (i, rest)) (hf : i.format = .gi op sign w rm imm) :
    immCount imm = grpDataCount op sign w ∧ DataBytesAt bs (2 + rmDispCount rm) imm := by
  obtain ⟨b0, b1, tl, k, _, _, hlen, rfl, _⟩ := decode_ok_cases h
  rw [Format.format_toInstr] at hf
  cases k with
  | grpImmRm op' =>
    simp only [decodeFields, Format.gi.injEq] at hf
    obtain ⟨rfl, rfl, rfl, rfl, rfl⟩ := hf
    rw [rmDispCount_decodeRmField]
    have hcount := grpDataCount_one_or_two op' (bit b0 1) (widthOf (bit b0 0))
    exact ⟨immCount_decodeImm hcount _ bs, dataBytesAt_decodeImm hcount hlen⟩
  | movImmReg => simp [decodeFields] at hf
  | immAcc op' => simp [decodeFields] at hf
  | rmReg op' => simp [decodeFields] at hf
  | jcc c => simp [decodeFields] at hf

/-- The two data bytes of rule R88, with the `w` bit as the record shows it. -/
theorem grpDataCount_eq_two_iff (op : AluOp) (sign : Bool) (w : Width) :
    grpDataCount op sign w = 2 ↔
      (op = .cmp ∧ sign = true ∧ isWide w = true) ∨
      ((op = .add ∨ op = .sub) ∧ sign = false ∧ isWide w = true) := by
  revert sign; cases op <;> cases w <;> decide

/-- The record's width and data byte count in formats IR and IA (rule R125). -/
theorem recordOf_plainImm {i : Instr} {reg : RegField} {op : AluOp} {imm : Imm}
    (hf : i.format = .ir reg imm ∨ i.format = .ia op imm) (s : State) :
    (recordOf i s).wide = isWide (immWidth imm) ∧ (recordOf i s).ni = immCount imm := by
  rcases hf with hf | hf <;> simp [recordOf, hf]

/-- The record's width, sign and byte counts in format GI (rule R125). -/
theorem recordOf_groupImm {i : Instr} {op : AluOp} {sign : Bool} {w : Width} {rm : RmField} {imm : Imm}
    (hf : i.format = .gi op sign w rm imm) (s : State) :
    (recordOf i s).wide = isWide w ∧ (recordOf i s).sign = sign ∧ (recordOf i s).nd = rmDispCount rm ∧
    (recordOf i s).ni = immCount imm := by
  simp [recordOf, hf]

/-- In formats IR and IA the width and the number of data bytes tell each other (rule R87). -/
theorem isWide_immWidth (imm : Imm) :
    (isWide (immWidth imm) = false → immCount imm = 1) ∧ (isWide (immWidth imm) = true → immCount imm = 2) := by
  cases imm <;> simp [isWide, immWidth, immCount]

/-- Settles O51: the decoder reads the immediate from the data bytes at its position, and the record counts them. -/
theorem immediateDataBytes : Obligations.ImmediateDataBytes := by
  intro bs rest i s h
  refine ⟨fun reg op imm hf => ?_, fun op sign w rm imm hf => ?_⟩
  · obtain ⟨hone, htwo⟩ := (decode_plainImm h hf).byCount
    obtain ⟨hnarrow, hwide⟩ := isWide_immWidth imm
    obtain ⟨ew, en⟩ := recordOf_plainImm hf s
    rw [ew, en]
    exact ⟨fun hw => ⟨hnarrow hw, hone (hnarrow hw)⟩, fun hw => ⟨hwide hw, htwo (hwide hw)⟩⟩
  · obtain ⟨hcount, hdata⟩ := decode_groupImm h hf
    obtain ⟨hone, htwo⟩ := hdata.byCount
    obtain ⟨ew, es, ed, en⟩ := recordOf_groupImm hf s
    rw [ew, es, ed, en]
    refine ⟨hcount ▸ grpDataCount_eq_two_iff op sign w, fun hne => ?_, htwo⟩
    have hc : immCount imm = 1 := by
      have := immCount_pos imm
      omega
    exact ⟨hc, hone hc⟩

end Sys2Proof.Machine
end

section
/-! The family of 30_encoding.md: the fields of a byte as numbers, the matcher's table, the byte counts and lengths that a
head gives, and the data bytes of the formats without a mod byte. -/

namespace Sys2Proof.Machine

/-! ### Fields as numbers -/

/-- A field is the number that division and remainder cut out of the byte (rule R110). -/
theorem field_toNat (b : Byte) (lo n : Nat) : (field b lo n).toNat = b.toNat / 2 ^ lo % 2 ^ n := by
  simp [field, Nat.shiftRight_eq_div_pow]

/-- Bits put side by side are the number with the left ones as its upper digits (rule R8). -/
theorem append_toNat {n m : Nat} (hi : BitVec n) (lo : BitVec m) :
    (hi ++ lo).toNat = hi.toNat * 2 ^ m + lo.toNat := by
  rw [BitVec.toNat_append, ← Nat.shiftLeft_add_eq_or_of_lt lo.isLt, Nat.shiftLeft_eq]

/-- The layout of format RM's head as two numbers (rule R94). -/
theorem encodeRmHead_toNat (op6 : BitVec 6) (d w : BitVec 1) (mod : BitVec 2) (reg rm : BitVec 3) :
    (encodeRmHead op6 d w mod reg rm).1.toNat = op6.toNat * 4 + d.toNat * 2 + w.toNat ∧
    (encodeRmHead op6 d w mod reg rm).2.toNat = mod.toNat * 64 + reg.toNat * 8 + rm.toNat := by
  simp only [encodeRmHead, append_toNat]
  omega

theorem extractRmHead_encodeRmHead (op6 : BitVec 6) (d w : BitVec 1) (mod : BitVec 2) (reg rm : BitVec 3) :
    extractRmHead (encodeRmHead op6 d w mod reg rm).1 (encodeRmHead op6 d w mod reg rm).2 =
      (op6, d, w, mod, reg, rm) := by
  obtain ⟨h0, h1⟩ := encodeRmHead_toNat op6 d w mod reg rm
  simp only [extractRmHead, Prod.mk.injEq]
  refine ⟨?_, ?_, ?_, ?_, ?_, ?_⟩ <;>
    · apply BitVec.eq_of_toNat_eq
      rw [field_toNat]
      omega

theorem encodeRmHead_fields (b0 b1 : Byte) :
    encodeRmHead (field b0 2 6) (field b0 1 1) (field b0 0 1) (field b1 6 2) (field b1 3 3) (field b1 0 3) =
      (b0, b1) := by
  obtain ⟨h0, h1⟩ :=
    encodeRmHead_toNat (field b0 2 6) (field b0 1 1) (field b0 0 1) (field b1 6 2) (field b1 3 3) (field b1 0 3)
  simp only [field_toNat] at h0 h1
  refine Prod.ext (BitVec.eq_of_toNat_eq (h0.trans ?_)) (BitVec.eq_of_toNat_eq (h1.trans ?_))
  · show _ = b0.toNat
    omega
  · show _ = b1.toNat
    omega

/-! ### The matcher's table -/

/-- Two entries conflict where their expected values differ on the bits that both masks keep. -/
def Conflict (p q : Pattern) : Prop := p.expected &&& q.mask ≠ q.expected &&& p.mask

/-- No opcode byte matches both of two conflicting entries: its bits under both masks would have two values. -/
theorem Conflict.not_both_match {p q : Pattern} (h : Conflict p q) (b0 : Byte) :
    ¬ (p.matchesHead b0 = true ∧ q.matchesHead b0 = true) := by
  rintro ⟨hp, hq⟩
  have hp : b0 &&& p.mask = p.expected := by simpa [Pattern.matchesHead] using hp
  have hq : b0 &&& q.mask = q.expected := by simpa [Pattern.matchesHead] using hq
  apply h
  rw [← hp, ← hq, BitVec.and_assoc, BitVec.and_assoc, BitVec.and_comm p.mask]

/-- The entries of the table conflict pairwise (rule R95). -/
theorem patterns_pairwise_conflict : patterns.Pairwise Conflict := by
  unfold Conflict; decide

/-- A list whose elements meet a condition only one at a time has at most one that meets it. -/
theorem length_filter_le_one {α : Type} {f : α → Bool} {l : List α}
    (h : l.Pairwise fun a b => ¬ (f a = true ∧ f b = true)) : (l.filter f).length ≤ 1 := by
  match hl : l.filter f with
  | [] => simp
  | [_] => simp
  | a :: b :: t =>
    have hpair : (a :: b :: t).Pairwise fun a b => ¬ (f a = true ∧ f b = true) := hl ▸ h.filter f
    have ha : f a = true := List.of_mem_filter (l := l) (by simp [hl])
    have hb : f b = true := List.of_mem_filter (l := l) (by simp [hl])
    exact absurd ⟨ha, hb⟩ (List.rel_of_pairwise_cons hpair (by simp))

/-- The opcode bytes that the first stage does not recognize (rules R80, R81, R92 (a)). -/
theorem matchHead_eq_none_iff (b0 : Byte) : matchHead b0 = none ↔
    ¬ (b0.toNat ≤ 0x05 ∨ (0x28 ≤ b0.toNat ∧ b0.toNat ≤ 0x2D) ∨ (0x38 ≤ b0.toNat ∧ b0.toNat ≤ 0x3D) ∨
      (0x70 ≤ b0.toNat ∧ b0.toNat ≤ 0x7F) ∨ (0x80 ≤ b0.toNat ∧ b0.toNat ≤ 0x83) ∨
      (0x88 ≤ b0.toNat ∧ b0.toNat ≤ 0x8B) ∨ (0xB0 ≤ b0.toNat ∧ b0.toNat ≤ 0xBF) ∨
      (0xE0 ≤ b0.toNat ∧ b0.toNat ≤ 0xE3)) := by
  revert b0; decide

/-- The opcode bytes of the group (rule R80). -/
theorem matchHead_eq_grpImmRm_iff (b0 : Byte) :
    matchHead b0 = some .grpImmRm ↔ 0x80 ≤ b0.toNat ∧ b0.toNat ≤ 0x83 := by
  revert b0; decide

/-- The sub-operation codes that the second stage does not recognize (rule R92 (b)). -/
theorem groupOp_eq_none_iff (subop : BitVec 3) :
    groupOp subop = none ↔ subop.toNat ≠ 0 ∧ subop.toNat ≠ 5 ∧ subop.toNat ≠ 7 := by
  revert subop; decide

/-- The second stage rejects nothing but a sub-operation of the group (rule R113). -/
theorem resolveKind_eq_none_iff (k : OuterKind) (b1 : Byte) :
    resolveKind k b1 = none ↔ k = .grpImmRm ∧ groupOp (field b1 3 3) = none := by
  cases k <;> simp [resolveKind]

/-- NoMatch comes from the first stage, or from the second one in the group (rules R112 to R114). -/
theorem classify_eq_none_iff (b0 b1 : Byte) :
    classify b0 b1 = none ↔
      matchHead b0 = none ∨ (matchHead b0 = some .grpImmRm ∧ groupOp (field b1 3 3) = none) := by
  unfold classify
  cases matchHead b0 with
  | none => simp
  | some k => simp [resolveKind_eq_none_iff]

/-! ### Byte counts and lengths -/

theorem headDispCount_le (b1 : Byte) : headDispCount b1 ≤ 2 := by
  rw [← rmDispCount_decodeRmField b1 []]
  exact rmDispCount_le _

/-- Every classified head gives a length from 2 to 6 (rules R70, R90, R91). -/
theorem headLength_bounds (k : Kind) (b0 b1 : Byte) : 2 ≤ headLength k b0 b1 ∧ headLength k b0 b1 ≤ 6 := by
  have hd := headDispCount_le b1
  cases k with
  | rmReg op => simp only [headLength]; omega
  | movImmReg =>
    have := dataCount_one_or_two (widthOf (bit b0 3))
    simp only [headLength, headDataCount]; omega
  | immAcc op =>
    have := dataCount_one_or_two (widthOf (bit b0 0))
    simp only [headLength, headDataCount]; omega
  | grpImmRm op =>
    have := grpDataCount_one_or_two op (bit b0 1) (widthOf (bit b0 0))
    simp only [headLength, headDataCount]; omega
  | jcc c => simp [headLength]

/-- Base expression number 110 is the one whose slot in the count's table the direct address takes (rules R84, R85). -/
theorem rmDispCount_base (b : RegField) : rmDispCount (.base b) = if b = 0b110#3 then 2 else 0 := by
  simp [rmDispCount, dispCount, modBits, rmBits]

/-- The displacement at position 2 of an instruction, by the mod bits of its second byte (rules R85, R86). -/
theorem decodeRmField_memory (b1 : Byte) (bs : List Byte) :
    (field b1 6 2 = 0b01#2 → decodeRmField b1 bs = .baseDisp8 (field b1 0 3) (byteAtPos bs 2)) ∧
    (field b1 6 2 = 0b10#2 → decodeRmField b1 bs = .baseDisp16 (field b1 0 3) (pairAtPos bs 2)) ∧
    (field b1 6 2 = 0b00#2 → field b1 0 3 = 0b110#3 → decodeRmField b1 bs = .direct (pairAtPos bs 2)) := by
  refine ⟨fun h => ?_, fun h => ?_, fun h hrm => ?_⟩
  · simp [decodeRmField, h]
  · simp [decodeRmField, h]
  · simp [decodeRmField, h, hrm]

theorem pairAtPos_toNat (bs : List Byte) (a : Nat) :
    (pairAtPos bs a).toNat = (bs.getD a 0).toNat + 256 * (bs.getD (a + 1) 0).toNat := by
  rw [pairAtPos, le16, join_toNat, byteAtPos, byteAtPos]
  omega

theorem widthOf_eq_word_iff (w : Bool) : widthOf w = .word ↔ w = true := by cases w <;> simp [widthOf]

@[simp] theorem isWide_widthOf (w : Bool) : isWide (widthOf w) = w := by cases w <;> rfl

theorem isWide_eq_true_iff (w : Width) : isWide w = true ↔ w = .word := by cases w <;> simp [isWide]

/-! ### The parts of a record -/

/-- A resolved register-or-memory field is a memory operand but in register mode (rules R82, R116 to R119). -/
theorem isMemory_resolveRm (m : RmField) (w : Width) :
    isMemory (resolveRm m w) = decide (modeOf m ≠ .registerMode) := by
  cases m <;> rfl

/-- In format RM the one operand that can be in memory is the r/m operand, in either direction (rules R121, R128). -/
theorem execSkipped_rm (d : Direction) (w : Width) (reg : RegField) (m : RmField) :
    execSkipped (rmDest d w reg m) (rmSource d w reg m) = isMemory (resolveRm m w) := by
  cases d <;> simp [execSkipped, rmDest, rmSource, resolveReg, isMemory]

/-- A record has no mode byte, no displacement and no skip, or it has the mode, the displacement count and the skip of its
register-or-memory field (rules R85, R125, R128). -/
theorem recordOf_mode_cases (i : Instr) (s : State) :
    ((recordOf i s).mode = none ∧ (recordOf i s).nd = 0 ∧ (recordOf i s).skipped = false) ∨
    ∃ m : RmField, (recordOf i s).mode = some (modeOf m) ∧ (recordOf i s).rm = rmBits m ∧
      (recordOf i s).nd = rmDispCount m ∧ (recordOf i s).skipped = decide (modeOf m ≠ .registerMode) := by
  rw [recordOf_skipped]
  cases hf : i.format with
  | rm op d w reg m =>
    refine .inr ⟨m, by simp [recordOf, hf], by simp [recordOf, hf], by simp [recordOf, hf], ?_⟩
    exact (execSkipped_rm d w reg m).trans (isMemory_resolveRm m w)
  | gi op sign w m imm =>
    refine .inr ⟨m, by simp [recordOf, hf], by simp [recordOf, hf], by simp [recordOf, hf], ?_⟩
    exact (Bool.or_false _).trans (isMemory_resolveRm m w)
  | ir reg imm => exact .inl ⟨by simp [recordOf, hf], by simp [recordOf, hf], rfl⟩
  | ia op imm => exact .inl ⟨by simp [recordOf, hf], by simp [recordOf, hf], rfl⟩
  | j c v => exact .inl ⟨by simp [recordOf, hf], by simp [recordOf, hf], rfl⟩

/-- A record is that of the instruction fetched (rule R125). -/
theorem stepRecord_eq_some {s : State} {r : Record} (h : stepRecord s = some r) :
    ∃ i, s.fetch = .ok i ∧ r = recordOf i s := by
  unfold stepRecord at h
  split at h
  · split at h
    · next i hi => exact ⟨i, hi, by simpa using h.symm⟩
    · cases h
  · cases h
  · cases h

/-! ### The data bytes after the opcode byte -/

theorem decodeImm_dataCount_width (w : Width) (a : Nat) (bs : List Byte) :
    immWidth (decodeImm (dataCount w) a bs) = w := by
  cases w <;> rfl

/-- In formats IR and IA the decoder counts the data bytes by the w bit of the opcode byte, reads them right after it and
consumes nothing more (rules R73, R74, R87). -/
theorem decode_plainImm_consumes {b0 : Byte} {tl rest : List Byte} {i : Instr} {imm : Imm} {w : Bool}
    (h : decode (b0 :: tl) = .ok (i, rest))
    (hw : ((∃ reg, i.format = .ir reg imm) ∧ w = b0.getLsbD 3) ∨ ((∃ op, i.format = .ia op imm) ∧ w = b0.getLsbD 0)) :
    imm = decodeImm (dataCount (widthOf w)) 1 (b0 :: tl) ∧ dataCount (widthOf w) ≤ tl.length ∧
      rest = tl.drop (dataCount (widthOf w)) := by
  obtain ⟨_, b1, tl', k, hbs, _, hlen, rfl, rfl⟩ := decode_ok_cases h
  obtain ⟨rfl, rfl⟩ := List.cons.inj hbs
  rw [Format.format_toInstr] at hw
  obtain ⟨hhead, himm⟩ : headLength k b0 b1 = 1 + dataCount (widthOf w) ∧
      decodeImm (dataCount (widthOf w)) 1 (b0 :: b1 :: tl') = imm := by
    cases k with
    | movImmReg =>
      obtain ⟨himm, rfl⟩ : decodeImm _ 1 _ = imm ∧ w = b0.getLsbD 3 := by simpa [decodeFields] using hw
      exact ⟨rfl, himm⟩
    | immAcc op =>
      obtain ⟨himm, rfl⟩ : decodeImm _ 1 _ = imm ∧ w = b0.getLsbD 0 := by simpa [decodeFields] using hw
      exact ⟨rfl, himm⟩
    | rmReg op => simp [decodeFields] at hw
    | grpImmRm op => simp [decodeFields] at hw
    | jcc c => simp [decodeFields] at hw
  rw [hhead, Nat.add_comm] at hlen ⊢
  exact ⟨himm.symm, Nat.le_of_succ_le_succ hlen, rfl⟩

/-- One data byte after the opcode byte at w = 0, the low and the high byte at w = 1 (rules R53, R87). -/
theorem decodeImm_afterOpcode {b0 : Byte} {tl : List Byte} {w : Bool} (h : dataCount (widthOf w) ≤ tl.length) :
    (w = false → ∃ v, decodeImm (dataCount (widthOf w)) 1 (b0 :: tl) = .imm8 v ∧
      tl = v :: tl.drop (dataCount (widthOf w))) ∧
    (w = true → ∃ lo hi, decodeImm (dataCount (widthOf w)) 1 (b0 :: tl) = .imm16 (hi ++ lo) ∧
      tl = lo :: hi :: tl.drop (dataCount (widthOf w))) := by
  refine ⟨?_, ?_⟩
  · rintro rfl
    match tl, h with
    | v :: _, _ => exact ⟨v, rfl, rfl⟩
  · rintro rfl
    match tl, h with
    | [_], h => exact absurd h (by decide : ¬ 2 ≤ 1)
    | lo :: hi :: _, _ => exact ⟨lo, hi, rfl, rfl⟩

/-! ### The statements -/

/-- Settles O6: by the two stages of the matcher. -/
theorem headRecognition : Obligations.HeadRecognition := by
  intro b0 b1
  rw [classify_eq_none_iff, matchHead_eq_none_iff, matchHead_eq_grpImmRm_iff, groupOp_eq_none_iff, field_toNat]
  exact Iff.rfl

/-- Settles O8: the fields make an instruction as long as its head says, and the rest is what is left after so many
bytes. -/
theorem decodeConsumesHeadLength : Obligations.DecodeConsumesHeadLength := by
  intro bs rest i h
  obtain ⟨b0, b1, tl, k, rfl, hk, hlen, rfl, rfl⟩ := decode_ok_cases h
  have hl : (decodeFields k b0 b1 (b0 :: b1 :: tl)).toInstr.length = headLength k b0 b1 := by
    rw [Instr.length, Format.format_toInstr, formatLength_decodeFields]
  obtain ⟨hmin, hmax⟩ := headLength_bounds k b0 b1
  rw [hl, List.length_drop]
  exact ⟨b0, b1, k, rfl, rfl, hk, rfl, hmin, hmax, by omega, rfl⟩

/-- Settles O35: the length by the format, the displacement count and the skip by the register-or-memory field. -/
theorem recordLengthParts : Obligations.RecordLengthParts := by
  intro s r h
  obtain ⟨i, _, rfl⟩ := stepRecord_eq_some h
  refine ⟨?_, ?_, ?_⟩
  · cases hf : i.format <;> simp [recordOf, hf, formatKind, formatDest, Instr.length, formatLength]
  · rcases recordOf_mode_cases i s with ⟨hmode, hnd, _⟩ | ⟨m, hmode, hrm, hnd, _⟩
    · rw [hmode, hnd]
    · rw [hmode, hnd, hrm]
      cases m with
      | base b => exact rmDispCount_base b
      | _ => rfl
  · rcases recordOf_mode_cases i s with ⟨hmode, _, hskip⟩ | ⟨m, hmode, _, _, hskip⟩
    · rw [hmode, hskip]; simp
    · rw [hmode, hskip]; simp

/-- Settles O52: the w bit gives the count of the data bytes, and the count their width. -/
theorem wideBitGivesDataBytes : Obligations.WideBitGivesDataBytes := by
  intro b0 tl rest i imm w h hw
  obtain ⟨rfl, hlen, rfl⟩ := decode_plainImm_consumes h hw
  refine ⟨fun s => ?_, decodeImm_afterOpcode hlen⟩
  have hwide : (recordOf i s).wide = isWide (immWidth (decodeImm (dataCount (widthOf w)) 1 (b0 :: tl))) := by
    rcases hw with ⟨⟨reg, hf⟩, _⟩ | ⟨⟨op, hf⟩, _⟩
    · exact (recordOf_plainImm (op := .add) (.inl hf) s).1
    · exact (recordOf_plainImm (reg := 0) (.inr hf) s).1
  rw [hwide, decodeImm_dataCount_width, isWide_widthOf]

/-- Settles O3: both identities follow from the layout as numbers. -/
theorem rmHeadReencodes : Obligations.RmHeadReencodes := by
  refine ⟨fun op6 d w mod reg rm => ?_, encodeRmHead_fields⟩
  obtain ⟨h0, h1⟩ := encodeRmHead_toNat op6 d w mod reg rm
  exact ⟨h0, h1, extractRmHead_encodeRmHead op6 d w mod reg rm⟩

/-- Settles O4: the table of counts, the place of the displacement, and the formats without a mod byte. -/
theorem displacementCounts : Obligations.DisplacementCounts := by
  refine ⟨fun _ => rfl, fun rm hrm => ?_, rfl, fun _ => rfl, fun _ => rfl, decodeRmField_memory, ?_⟩
  · simp [dispCount, hrm]
  · intro s reg imm op c v
    refine ⟨rfl, ?_, ?_⟩ <;> simp [recordOf]

/-- Settles O5: the count by its three arguments; the decoder's immediate is read after the displacement. -/
theorem groupDataCounts : Obligations.GroupDataCounts := by
  refine ⟨fun op s w => ⟨?_, fun hne => (grpDataCount_one_or_two op s w).resolve_right hne⟩, fun op b0 b1 bs => ?_⟩
  · simpa only [isWide_eq_true_iff] using grpDataCount_eq_two_iff op s w
  · refine ⟨_, _, _, _, rfl, rfl, widthOf_eq_word_iff _, fun hone => ?_, fun htwo => ⟨_, ?_, pairAtPos_toNat bs _⟩⟩
    · simp [headDataCount, hone, decodeImm, byteAtPos]
    · simp [headDataCount, htwo, decodeImm]

/-- Settles O7: entries that conflict pairwise match one at a time. -/
theorem patternsExclusive : Obligations.PatternsExclusive :=
  ⟨rfl, fun b0 => length_filter_le_one (patterns_pairwise_conflict.imp fun h => h.not_both_match b0)⟩

end Sys2Proof.Machine
end

section
/-! The family of 40_decode.md: what a fetch answers by the bytes at `pc`, what the decoder reads back from an encoding
and which bytes it looks at, the record of a step, and the step against its flat transcription over numbers. -/

namespace Sys2Proof.Machine

/-! ### Bits and bytes as numbers -/

theorem bit_toNat (b : Byte) (i : Nat) : (bit b i).toNat = b.toNat / 2 ^ i % 2 := by
  simp [bit, BitVec.getLsbD, Nat.toNat_testBit]

theorem bit_eq_true_iff (b : Byte) (i : Nat) : bit b i = true ↔ b.toNat / 2 ^ i % 2 = 1 := by
  rw [← bit_toNat]
  cases bit b i <;> simp

theorem sext16_toNat (b : Byte) : (sext16 b).toNat = if 128 ≤ b.toNat then b.toNat + 0xFF00 else b.toNat := by
  revert b; decide

/-! ### Operations with a destination and a source -/

theorem State.readOperand_register (s : State) (n : RegField) (w : Width) :
    ∃ v, s.readOperand (.register n w) = some v := by
  cases w <;> exact ⟨_, rfl⟩

/-- An instruction whose destination is a register and whose source has a value is not skipped (rule R128). -/
theorem execSkipped_of_value {s : State} {source : Operand} {v : Word} (h : s.readOperand source = some v)
    (n : RegField) (w : Width) : execSkipped (.register n w) source = false := by
  have hm : isMemory source ≠ true := fun hm => by
    rw [(s.readOperand_eq_none_iff source).2 hm] at h
    cases h
  exact Bool.eq_false_iff.2 hm

theorem State.move_of_value {s : State} {source : Operand} {v : Word} (h : s.readOperand source = some v)
    (n : RegField) (w : Width) : s.move (.register n w) source = s.writeOperand (.register n w) v := by
  simp [State.move, execSkipped_of_value h, h]

theorem State.arith_of_values {s : State} {source : Operand} {a v : Word} {n : RegField} {w : Width}
    (hd : s.readOperand (.register n w) = some a) (h : s.readOperand source = some v) (op : AluOp) :
    s.arith op (.register n w) source =
      (let flagged := s.setFlags (zeroFlag (aluResult op a v)) (signFlag (aluResult op a v))
       if writesBack op then flagged.writeOperand (.register n w) (aluResult op a v) else flagged) := by
  simp [State.arith, execSkipped_of_value h, h, hd]

/-- Step 9 of rule R126 for an operation with a destination and a source. -/
def State.operate (s : State) (op : DataOp) (dest source : Operand) : State :=
  match op with
  | .mov => s.move dest source
  | .alu op => s.arith op dest source

@[simp] theorem State.execute_rm (s : State) (op : DataOp) (d : Direction) (w : Width) (reg : RegField) (m : RmField) :
    s.execute (.rm op d w reg m) = s.operate op (rmDest d w reg m) (rmSource d w reg m) := by
  cases op <;> rfl
@[simp] theorem State.execute_ir (s : State) (reg : RegField) (imm : Imm) :
    s.execute (.ir reg imm) = s.operate .mov (.register reg (immWidth imm)) (.immediate (plainImmValue imm)) := rfl
@[simp] theorem State.execute_ia (s : State) (op : AluOp) (imm : Imm) :
    s.execute (.ia op imm) = s.operate (.alu op) (.register 0 (immWidth imm)) (.immediate (plainImmValue imm)) := rfl
@[simp] theorem State.execute_gi (s : State) (op : AluOp) (sign : Bool) (w : Width) (m : RmField) (imm : Imm) :
    s.execute (.gi op sign w m imm) = s.operate (.alu op) (resolveRm m w) (.immediate (groupImmValue sign w imm)) := rfl
@[simp] theorem State.execute_j (s : State) (c : Jcc) (v : Byte) : s.execute (.j c v) = s := rfl

/-! ### Skipped instructions -/

/-- A skipped instruction changes neither registers nor flags (rule R128). -/
theorem State.execute_of_skipped {f : Format} (h : recordSkipped (formatDest f) (formatSource f) = true) (s : State) :
    s.execute f = s := by
  rcases State.execute_shape f with ⟨dest, _, hd, he⟩ | ⟨op, dest, _, hd, he⟩ | he
  · rcases s.move_cases dest (formatSource f) with ⟨_, hm⟩ | ⟨hs, _⟩
    · rw [he, hm]
    · simp [hd, recordSkipped, hs] at h
  · rcases s.arith_cases op dest (formatSource f) with ⟨_, hm⟩ | ⟨hs, _⟩
    · rw [he, hm]
    · simp [hd, recordSkipped, hs] at h
  · exact he s

theorem modeOf_ne_registerMode {m : RmField} (h : ∀ r, m ≠ .reg r) : modeOf m ≠ .registerMode := by
  cases m with
  | reg r => exact absurd rfl (h r)
  | _ => simp [modeOf]

theorem recordSkipped_rm (op : DataOp) (d : Direction) (w : Width) (reg : RegField) (m : RmField) :
    recordSkipped (formatDest (.rm op d w reg m)) (formatSource (.rm op d w reg m)) =
      decide (modeOf m ≠ .registerMode) :=
  (execSkipped_rm d w reg m).trans (isMemory_resolveRm m w)

theorem recordSkipped_gi (op : AluOp) (sign : Bool) (w : Width) (m : RmField) (imm : Imm) :
    recordSkipped (formatDest (.gi op sign w m imm)) (formatSource (.gi op sign w m imm)) =
      decide (modeOf m ≠ .registerMode) :=
  (Bool.or_false _).trans (isMemory_resolveRm m w)

theorem decodeRmField_register {b1 : Byte} (h : field b1 6 2 = 0b11#2) (bs : List Byte) :
    decodeRmField b1 bs = .reg (field b1 0 3) := if_pos h

theorem modeOf_decodeRmField {b1 : Byte} (h : field b1 6 2 ≠ 0b11#2) (bs : List Byte) :
    modeOf (decodeRmField b1 bs) ≠ .registerMode := by
  have hrest : ∀ m : BitVec 2, m ≠ 0b11#2 → m = 0b01#2 ∨ m = 0b10#2 ∨ m = 0b00#2 := by decide
  unfold decodeRmField
  rcases hrest _ h with hm | hm | hm
  · simp [hm, modeOf]
  · simp [hm, modeOf]
  · by_cases hrm : field b1 0 3 = 0b110#3 <;> simp [hm, hrm, modeOf]

/-! ### The pointer after an instruction that is not jnz -/

theorem State.nextPc_of_not_jnz (s : State) {f : Format} (h : ∀ v, f ≠ .j .jnz v) :
    s.nextPc f = s.pc + BitVec.ofNat 16 (formatLength f) := by
  unfold State.nextPc
  split
  · next v => exact absurd rfl (h v)
  all_goals rfl

/-! ### Fetching, by what the stream holds at `pc` -/

theorem State.fetchWindow_length (s : State) : s.fetchWindow.length = min 6 (s.stream.size - s.pc.toNat) :=
  Memory.bytesFrom_length _ _ _

theorem State.fetchWindow_getElem? (s : State) {a : Nat} (h : a < 6) :
    s.fetchWindow[a]? = s.stream.byteAt (s.pc.toNat + a) :=
  (Memory.bytesFrom_getElem? _ _ _ a).trans (if_pos h)

/-- Fewer bytes are shown to the decoder than it needs exactly where the stream ends before them. -/
theorem State.fetchWindow_length_lt_iff (s : State) {n : Nat} (h : 2 ≤ n ∧ n ≤ 6) :
    s.fetchWindow.length < n ↔ s.stream.size < s.pc.toNat + n := by
  rw [s.fetchWindow_length]
  omega

theorem State.fetchWindow_head {s : State} (h : s.pc.toNat + 2 ≤ s.stream.size) :
    ∃ b0 b1 tl, s.fetchWindow = b0 :: b1 :: tl := by
  have hlen : ¬ s.fetchWindow.length < 2 := mt (s.fetchWindow_length_lt_iff (by omega)).1 (by omega)
  match hw : s.fetchWindow with
  | [] => simp [hw] at hlen
  | [_] => simp [hw] at hlen
  | b0 :: b1 :: tl => exact ⟨b0, b1, tl, rfl⟩

/-- No head is left (the first place of rule R213). -/
theorem State.fetch_of_no_head {s : State} (h : s.stream.size < s.pc.toNat + 2) : s.fetch = .error .streamExhausted :=
  (s.fetch_error_iff _).2 (decode_short ((s.fetchWindow_length_lt_iff (by omega)).2 h))

section
variable {s : State} {b0 b1 : Byte} {tl : List Byte} (hw : s.fetchWindow = b0 :: b1 :: tl)
include hw

/-- The head matches no pattern (the second place of rule R213). -/
theorem State.fetch_of_unmatched (hk : classify b0 b1 = none) :
    s.fetch = .error (.unrecognizedOpcode (join b0 b1)) :=
  (s.fetch_error_iff _).2 (by rw [hw, decode_cons_cons, hk])

/-- The head's instruction does not fit (the third place of rule R213). -/
theorem State.fetch_of_cut {k : Kind} (hk : classify b0 b1 = some k)
    (hlen : s.stream.size < s.pc.toNat + headLength k b0 b1) : s.fetch = .error .streamExhausted := by
  have hshort := (s.fetchWindow_length_lt_iff (headLength_bounds k b0 b1)).2 hlen
  rw [hw] at hshort
  exact (s.fetch_error_iff _).2 (by simp only [hw, decode_cons_cons, hk, if_pos hshort])

theorem State.fetch_of_whole {k : Kind} (hk : classify b0 b1 = some k)
    (hlen : s.pc.toNat + headLength k b0 b1 ≤ s.stream.size) :
    s.fetch = .ok (decodeFields k b0 b1 s.fetchWindow).toInstr := by
  have hlong := mt (s.fetchWindow_length_lt_iff (headLength_bounds k b0 b1)).1 (Nat.not_lt.2 hlen)
  rw [hw] at hlong
  refine (s.fetch_ok_iff _).2 ⟨(b0 :: b1 :: tl).drop (headLength k b0 b1), ?_⟩
  simp only [hw, decode_cons_cons, hk, if_neg hlong]

end

/-! ### A format that is well formed -/

/-- `Instr.wf` as a predicate of the format (rules R84, R88). -/
def formatWf : Format → Bool
  | .rm _ _ _ _ m => m.wf
  | .gi op s w m imm => m.wf && grpImmWf op s w imm
  | .ir _ _ | .ia _ _ | .j _ _ => true

theorem wf_eq_formatWf (i : Instr) : i.wf = formatWf i.format := by cases i <;> rfl

/-- The bytes of a well-formed format are as many as its length says (rules R70, R90). -/
theorem encodeFormat_length {f : Format} (h : formatWf f = true) : (encodeFormat f).length = formatLength f := by
  cases f with
  | rm op d w reg m =>
    have hd := dispBytes_length_of_wf (f := m) h
    simp only [encodeFormat, formatLength, List.length_cons, hd]
    omega
  | gi op s w m imm =>
    obtain ⟨hm, _⟩ : m.wf = true ∧ grpImmWf op s w imm = true := by simpa [formatWf] using h
    have hd := dispBytes_length_of_wf hm
    simp only [encodeFormat, formatLength, List.length_cons, List.length_append, hd, immBytes_length]
    omega
  | ir reg imm => simp only [encodeFormat, formatLength, List.length_cons, immBytes_length]; omega
  | ia op imm => simp only [encodeFormat, formatLength, List.length_cons, immBytes_length]; omega
  | j c v => rfl

/-! ### Reading back the fields of an encoded head -/

/-- Bits 1 and 0 of an opcode byte of formats RM and GI (rules R72, R75). -/
theorem bits_of_opcode (op6 : BitVec 6) (d w : BitVec 1) :
    bit (op6 ++ d ++ w) 1 = d.getLsbD 0 ∧ bit (op6 ++ d ++ w) 0 = w.getLsbD 0 := by
  unfold bit
  simp only [BitVec.getLsbD_append]
  exact ⟨rfl, rfl⟩

/-- Bit 3 and bits 2 to 0 of the opcode byte of format IR (rule R73). -/
theorem fields_of_movOpcode (w : BitVec 1) (reg : RegField) :
    bit (0b1011#4 ++ w ++ reg) 3 = w.getLsbD 0 ∧ field (0b1011#4 ++ w ++ reg) 0 3 = reg := by
  revert w reg; decide

/-- Bit 0 of the opcode byte of format IA (rule R74). -/
theorem bit_of_accOpcode (op7 : BitVec 7) (w : BitVec 1) : bit (op7 ++ w) 0 = w.getLsbD 0 := by
  unfold bit
  rw [BitVec.getLsbD_append]
  rfl

@[simp] theorem directionOf_directionBit (d : Direction) : directionOf ((directionBit d).getLsbD 0) = d := by
  cases d <;> rfl
@[simp] theorem widthOf_widthBit (w : Width) : widthOf ((widthBit w).getLsbD 0) = w := by cases w <;> rfl
@[simp] theorem getLsbD_ofBool (b : Bool) : (BitVec.ofBool b).getLsbD 0 = b := by cases b <;> rfl

/-- The fields of the second byte of formats RM and GI (rules R72, R75, R94). -/
theorem fields_of_modByte (m : RmField) (middle : BitVec 3) :
    field (modByte m middle) 6 2 = modBits m ∧ field (modByte m middle) 3 3 = middle ∧
    field (modByte m middle) 0 3 = rmBits m := by
  have h := extractRmHead_encodeRmHead 0 0 0 (modBits m) middle (rmBits m)
  simp only [extractRmHead, Prod.mk.injEq] at h
  obtain ⟨_, _, _, hmod, hmiddle, hrm⟩ := h
  exact ⟨hmod, hmiddle, hrm⟩

theorem headDispCount_modByte (m : RmField) (middle : BitVec 3) :
    headDispCount (modByte m middle) = rmDispCount m := by
  obtain ⟨hmod, _, hrm⟩ := fields_of_modByte m middle
  rw [headDispCount, hmod, hrm, rmDispCount]

theorem decodeRmField_modByte {m : RmField} (h : m.wf = true) (middle : BitVec 3) (b0 b1 : Byte) (tl : List Byte) :
    decodeRmField (modByte m middle) (b0 :: b1 :: (dispBytes m ++ tl)) = m := by
  obtain ⟨hmod, _, hrm⟩ := fields_of_modByte m middle
  unfold decodeRmField
  rw [hmod, hrm]
  cases m with
  | reg r => rfl
  | base b =>
    have hb : b ≠ 0b110#3 := by simpa [RmField.wf] using h
    simp [modBits, rmBits, hb]
  | baseDisp8 b d => rfl
  | baseDisp16 b d => simp [modBits, rmBits, dispBytes, pairAtPos, byteAtPos, le16]
  | direct a => simp [modBits, rmBits, dispBytes, pairAtPos, byteAtPos, le16]

/-- Data bytes that stand at the end of a list are read back from there (rules R53, R89). -/
theorem decodeImm_immBytes (front : List Byte) (imm : Imm) :
    decodeImm (immCount imm) front.length (front ++ immBytes imm) = imm := by
  cases imm with
  | imm8 v => simp [decodeImm, immCount, immBytes, byteAtPos]
  | imm16 v => simp [decodeImm, immCount, immBytes, byteAtPos, pairAtPos, le16]

theorem dataCount_immWidth (imm : Imm) : dataCount (immWidth imm) = immCount imm := by cases imm <;> rfl

theorem immBytes_cons (imm : Imm) : ∃ v tl, immBytes imm = v :: tl := by cases imm <;> exact ⟨_, _, rfl⟩

/-! The matcher on the encoder's opcode bytes (rules R80, R81). -/

theorem matchHead_rmOp6 (op : DataOp) (d w : BitVec 1) : matchHead (rmOp6 op ++ d ++ w) = some (.rmReg op) := by
  revert d w
  cases op with
  | mov => decide
  | alu op => cases op <;> decide

theorem matchHead_movImmReg (w : BitVec 1) (reg : RegField) :
    matchHead (0b1011#4 ++ w ++ reg) = some .movImmReg := by
  revert w reg; decide

theorem matchHead_accOp7 (op : AluOp) (w : BitVec 1) : matchHead (accOp7 op ++ w) = some (.immAcc op) := by
  revert w; cases op <;> decide

theorem matchHead_group (s w : BitVec 1) : matchHead (0b100000#6 ++ s ++ w) = some .grpImmRm := by
  revert s w; decide

theorem matchHead_jccOpcode (c : Jcc) : matchHead (jccOpcode c) = some (.jcc c) := by cases c <;> rfl

theorem groupOp_groupCode (op : AluOp) : groupOp (groupCode op) = some op := by cases op <;> rfl

theorem classify_of_matchHead {b0 : Byte} {k : OuterKind} (h : matchHead b0 = some k) (b1 : Byte) :
    classify b0 b1 = resolveKind k b1 := by
  simp [classify, h]

theorem classify_group (op : AluOp) (s w : BitVec 1) (m : RmField) :
    classify (0b100000#6 ++ s ++ w) (modByte m (groupCode op)) = some (.grpImmRm op) := by
  obtain ⟨_, hsub, _⟩ := fields_of_modByte m (groupCode op)
  rw [classify_of_matchHead (matchHead_group s w), resolveKind, hsub, groupOp_groupCode, Option.map_some]

/-! ### Decoding an encoding -/

/-- Bytes that are just as many as the fields read from them need decode to those fields. -/
theorem decode_of_fields {b0 b1 : Byte} {tl : List Byte} {k : Kind} {f : Format} (hk : classify b0 b1 = some k)
    (hf : decodeFields k b0 b1 (b0 :: b1 :: tl) = f) (hlen : (b0 :: b1 :: tl).length = formatLength f) :
    decode (b0 :: b1 :: tl) = .ok (f.toInstr, []) := by
  have hhead : headLength k b0 b1 = (b0 :: b1 :: tl).length := by rw [hlen, ← hf, formatLength_decodeFields]
  simp only [decode_cons_cons, hk]
  rw [hhead, if_neg (Nat.lt_irrefl _), hf, List.drop_length]

theorem decodeFields_rm {m : RmField} (h : m.wf = true) (op : DataOp) (d : Direction) (w : Width) (reg : RegField) :
    decodeFields (.rmReg op) (rmOp6 op ++ directionBit d ++ widthBit w) (modByte m reg)
      (encodeFormat (.rm op d w reg m)) = .rm op d w reg m := by
  obtain ⟨hd, hw⟩ := bits_of_opcode (rmOp6 op) (directionBit d) (widthBit w)
  obtain ⟨_, hreg, _⟩ := fields_of_modByte m reg
  have hm := decodeRmField_modByte h reg (rmOp6 op ++ directionBit d ++ widthBit w) (modByte m reg) []
  rw [List.append_nil] at hm
  rw [decodeFields, encodeFormat, hd, hw, hreg, hm, directionOf_directionBit, widthOf_widthBit]

theorem decodeFields_ir (reg : RegField) (imm : Imm) (b1 : Byte) :
    decodeFields .movImmReg (0b1011#4 ++ widthBit (immWidth imm) ++ reg) b1 (encodeFormat (.ir reg imm)) =
      .ir reg imm := by
  obtain ⟨hw, hreg⟩ := fields_of_movOpcode (widthBit (immWidth imm)) reg
  rw [decodeFields, headDataCount, hw, widthOf_widthBit, dataCount_immWidth, hreg]
  exact congrArg _ (decodeImm_immBytes [0b1011#4 ++ widthBit (immWidth imm) ++ reg] imm)

theorem decodeFields_ia (op : AluOp) (imm : Imm) (b1 : Byte) :
    decodeFields (.immAcc op) (accOp7 op ++ widthBit (immWidth imm)) b1 (encodeFormat (.ia op imm)) = .ia op imm := by
  rw [decodeFields, headDataCount, bit_of_accOpcode, widthOf_widthBit, dataCount_immWidth]
  exact congrArg _ (decodeImm_immBytes [accOp7 op ++ widthBit (immWidth imm)] imm)

theorem decodeFields_gi {op : AluOp} {s : Bool} {w : Width} {m : RmField} {imm : Imm} (h : m.wf = true)
    (himm : grpImmWf op s w imm = true) :
    decodeFields (.grpImmRm op) (0b100000#6 ++ BitVec.ofBool s ++ widthBit w) (modByte m (groupCode op))
      (encodeFormat (.gi op s w m imm)) = .gi op s w m imm := by
  have hcount : grpDataCount op s w = immCount imm := (of_decide_eq_true himm).symm
  obtain ⟨hs, hw⟩ := bits_of_opcode 0b100000#6 (BitVec.ofBool s) (widthBit w)
  have hm := decodeRmField_modByte h (groupCode op) (0b100000#6 ++ BitVec.ofBool s ++ widthBit w)
    (modByte m (groupCode op)) (immBytes imm)
  have hplace : 2 + headDispCount (modByte m (groupCode op)) = (dispBytes m).length + 1 + 1 := by
    rw [headDispCount_modByte, dispBytes_length_of_wf h, Nat.add_comm]
  rw [decodeFields, headDataCount, encodeFormat, hs, hw, hm, getLsbD_ofBool, widthOf_widthBit, hcount, hplace]
  exact congrArg _ (decodeImm_immBytes
    ((0b100000#6 ++ BitVec.ofBool s ++ widthBit w) :: modByte m (groupCode op) :: dispBytes m) imm)

theorem decode_encodeFormat {f : Format} (h : formatWf f = true) : decode (encodeFormat f) = .ok (f.toInstr, []) := by
  have hlen := encodeFormat_length h
  cases f with
  | rm op d w reg m =>
    exact decode_of_fields (classify_of_matchHead (matchHead_rmOp6 op _ _) _) (decodeFields_rm h op d w reg) hlen
  | ir reg imm =>
    obtain ⟨v, tl, himm⟩ := immBytes_cons imm
    have hf := decodeFields_ir reg imm v
    rw [encodeFormat, himm] at hf hlen ⊢
    exact decode_of_fields (classify_of_matchHead (matchHead_movImmReg _ _) v) hf hlen
  | ia op imm =>
    obtain ⟨v, tl, himm⟩ := immBytes_cons imm
    have hf := decodeFields_ia op imm v
    rw [encodeFormat, himm] at hf hlen ⊢
    exact decode_of_fields (classify_of_matchHead (matchHead_accOp7 op _) v) hf hlen
  | gi op s w m imm =>
    obtain ⟨hm, himm⟩ : m.wf = true ∧ grpImmWf op s w imm = true := by simpa [formatWf] using h
    exact decode_of_fields (classify_group op _ _ m) (decodeFields_gi hm himm) hlen
  | j c v => exact decode_of_fields (classify_of_matchHead (matchHead_jccOpcode c) v) rfl hlen

/-- Decoding the encoding of a well-formed instruction answers it and consumes every byte (rules R70 to R95). -/
theorem decode_encode {i : Instr} (h : i.WellFormed) : decode (encode i) = .ok (i, []) := by
  have hf : formatWf i.format = true := (wf_eq_formatWf i).symm.trans h
  rw [encode, decode_encodeFormat hf, Instr.toInstr_format]

theorem encode_length {i : Instr} (h : i.WellFormed) : (encode i).length = i.length :=
  encodeFormat_length ((wf_eq_formatWf i).symm.trans h)

/-! ### The decoder reads no byte beyond the instruction -/

theorem pairAtPos_congr {bs bs' : List Byte} {n a : Nat} (h : ∀ x < n, byteAtPos bs' x = byteAtPos bs x)
    (ha : a + 1 < n) : pairAtPos bs' a = pairAtPos bs a := by
  rw [pairAtPos, pairAtPos, h a (by omega), h (a + 1) ha]

theorem decodeRmField_congr {b1 : Byte} {bs bs' : List Byte}
    (h : ∀ x < 2 + headDispCount b1, byteAtPos bs' x = byteAtPos bs x) :
    decodeRmField b1 bs' = decodeRmField b1 bs := by
  unfold headDispCount at h
  unfold decodeRmField
  have hmod : ∀ m : BitVec 2, m = 0b11#2 ∨ m = 0b01#2 ∨ m = 0b10#2 ∨ m = 0b00#2 := by decide
  rcases hmod (field b1 6 2) with hm | hm | hm | hm <;> rw [hm] at h ⊢
  · rfl
  · exact congrArg (RmField.baseDisp8 _) (h 2 (Nat.lt_succ_self 2))
  · exact congrArg (RmField.baseDisp16 _) (pairAtPos_congr h (Nat.lt_succ_self 3))
  · by_cases hrm : field b1 0 3 = 0b110#3
    · rw [hrm] at h ⊢
      exact congrArg RmField.direct (pairAtPos_congr h (by decide))
    · simp [hrm]

theorem decodeImm_congr {n a : Nat} {bs bs' : List Byte} (hn : n = 1 ∨ n = 2)
    (h : ∀ x < a + n, byteAtPos bs' x = byteAtPos bs x) : decodeImm n a bs' = decodeImm n a bs := by
  rcases hn with rfl | rfl
  · exact congrArg Imm.imm8 (h a (by omega))
  · exact congrArg Imm.imm16 (pairAtPos_congr h (by omega))

/-- The fields depend on no byte beyond the length that the head gives (rule R123). -/
theorem decodeFields_congr {k : Kind} {b0 b1 : Byte} {bs bs' : List Byte}
    (h : ∀ x < headLength k b0 b1, byteAtPos bs' x = byteAtPos bs x) :
    decodeFields k b0 b1 bs' = decodeFields k b0 b1 bs := by
  cases k with
  | rmReg op => rw [decodeFields, decodeFields, decodeRmField_congr h]
  | movImmReg => exact congrArg (Format.ir _) (decodeImm_congr (dataCount_one_or_two _) h)
  | immAcc op => exact congrArg (Format.ia op) (decodeImm_congr (dataCount_one_or_two _) h)
  | grpImmRm op =>
    have hrm : decodeRmField b1 bs' = decodeRmField b1 bs :=
      decodeRmField_congr fun x hx => h x (Nat.lt_of_lt_of_le hx (Nat.le_add_right _ _))
    exact congrArg₂ (Format.gi op _ _) hrm (decodeImm_congr (grpDataCount_one_or_two _ _ _) h)
  | jcc c => rfl

/-- Bytes that begin with those of a decoded instruction decode to it, whatever follows (rule R123). -/
theorem decode_congr {bs bs' rest : List Byte} {i : Instr} (hd : decode bs = .ok (i, rest))
    (h : ∀ a < i.length, bs'[a]? = bs[a]?) : decode bs' = .ok (i, bs'.drop i.length) := by
  obtain ⟨b0, b1, tl, k, rfl, hk, hlen, rfl, _⟩ := decode_ok_cases hd
  have hl : (decodeFields k b0 b1 (b0 :: b1 :: tl)).toInstr.length = headLength k b0 b1 := by
    rw [Instr.length, Format.format_toInstr, formatLength_decodeFields]
  rw [hl] at h ⊢
  obtain ⟨hmin, _⟩ := headLength_bounds k b0 b1
  have hlen' : headLength k b0 b1 ≤ bs'.length := by
    have hlast := h (headLength k b0 b1 - 1) (by omega)
    rw [List.getElem?_eq_getElem (l := b0 :: b1 :: tl) (by omega)] at hlast
    obtain ⟨hlt, _⟩ := List.getElem?_eq_some_iff.1 hlast
    omega
  match bs', h, hlen' with
  | [], _, hlen' => simp at hlen'; omega
  | [_], _, hlen' => simp at hlen'; omega
  | c0 :: c1 :: tl', h, hlen' =>
    obtain rfl : c0 = b0 := by simpa using h 0 (by omega)
    obtain rfl : c1 = b1 := by simpa using h 1 (by omega)
    have hfields : decodeFields k c0 c1 (c0 :: c1 :: tl') = decodeFields k c0 c1 (c0 :: c1 :: tl) :=
      decodeFields_congr fun x hx => by
        rw [byteAtPos, byteAtPos, List.getD_eq_getElem?_getD, List.getD_eq_getElem?_getD, h x hx]
    simp only [decode_cons_cons, hk, if_neg (Nat.not_lt.2 hlen'), hfields]

/-! ### A step that runs an instruction -/

theorem step_eq_exec {s : State} {i : Instr} (hrun : s.status = .run) (hi : s.fetch = .ok i) :
    step s = exec i s ∧ stepRecord s = some (recordOf i s) := by
  simp [step, stepRecord, hrun, hi]

theorem decode_length_le {bs rest : List Byte} {i : Instr} (h : decode bs = .ok (i, rest)) : i.length ≤ 6 := by
  obtain ⟨_, _, _, _, _, _, _, _, hmax, _⟩ := decodeConsumesHeadLength bs rest i h
  exact hmax

/-- Where the stream holds the bytes of a decoded instruction at `pc`, that instruction is fetched. -/
theorem State.fetch_of_bytes {s : State} {bs rest : List Byte} {i : Instr} (hd : decode bs = .ok (i, rest))
    (h : ∀ a < i.length, s.stream.byteAt (s.pc.toNat + a) = bs[a]?) : s.fetch = .ok i := by
  have hmax := decode_length_le hd
  refine (s.fetch_ok_iff i).2 ⟨_, decode_congr hd fun a ha => ?_⟩
  rw [s.fetchWindow_getElem? (by omega), h a ha]

/-- Settles O16: the fetch is the decoding of the bytes at `pc`, and exec alone follows it. -/
theorem stepRunsDecodedInstruction : Obligations.StepRunsDecodedInstruction := by
  intro s i rest hrun hd _
  exact step_eq_exec hrun ((s.fetch_ok_iff i).2 ⟨rest, hd⟩)

/-- Settles O17: the encoding decodes to the instruction, and the bytes after it do not matter. -/
theorem stepRunsEncodedInstruction : Obligations.StepRunsEncodedInstruction := by
  intro s i hrun hwf h
  rw [encode_length hwf] at h
  exact step_eq_exec hrun (State.fetch_of_bytes (decode_encode hwf) h)

/-! ### The stream outside the instruction -/

/-- A change of the state that shows in no register and leaves register and flag writes as they are: it touches the
pointer, the latches or the stream alone. -/
structure KeepsRegisterFile (g : State → State) : Prop where
  readReg : ∀ s r, (g s).readReg r = s.readReg r
  writeReg : ∀ s r v, (g s).writeReg r v = g (s.writeReg r v)
  setFlags : ∀ s z f, (g s).setFlags z f = g (s.setFlags z f)

section
variable {g : State → State} (hg : KeepsRegisterFile g)
include hg

theorem KeepsRegisterFile.readOperand (s : State) (o : Operand) : (g s).readOperand o = s.readOperand o := by
  cases o with
  | register n w =>
    cases w with
    | word => exact congrArg some (hg.readReg s n)
    | byte => simp only [State.readOperand_byte, State.readByteReg, hg.readReg]
  | effectiveAddress rm d => rfl
  | directAddress a => rfl
  | immediate a => rfl

theorem KeepsRegisterFile.writeOperand (s : State) (o : Operand) (v : Word) :
    (g s).writeOperand o v = g (s.writeOperand o v) := by
  cases o with
  | register n w =>
    cases w with
    | word => exact hg.writeReg s n v
    | byte => simp only [State.writeOperand_byte, State.writeByteReg, hg.readReg, hg.writeReg, apply_ite g]
  | effectiveAddress rm d => rfl
  | directAddress a => rfl
  | immediate a => rfl

theorem KeepsRegisterFile.move (s : State) (dest source : Operand) :
    (g s).move dest source = g (s.move dest source) := by
  unfold State.move
  rw [hg.readOperand]
  split
  · rfl
  · split
    · exact hg.writeOperand s dest _
    · rfl

theorem KeepsRegisterFile.arith (s : State) (op : AluOp) (dest source : Operand) :
    (g s).arith op dest source = g (s.arith op dest source) := by
  unfold State.arith
  rw [hg.readOperand, hg.readOperand]
  split
  · rfl
  · split
    · simp only [hg.setFlags, hg.writeOperand, apply_ite g]
    · rfl

/-- Executing depends on registers and flags alone and changes nothing else (rules R52, R62). -/
theorem KeepsRegisterFile.execute (s : State) (f : Format) : (g s).execute f = g (s.execute f) := by
  rcases State.execute_shape f with ⟨dest, _, _, he⟩ | ⟨op, dest, _, _, he⟩ | he <;> rw [he, he]
  · exact hg.move s dest _
  · exact hg.arith s op dest _

end

/-- The state with another stream. -/
def State.withStream (s : State) (m : Memory) : State := { s with stream := m }

theorem State.withStream_keepsRegisterFile (m : Memory) : KeepsRegisterFile (State.withStream · m) :=
  ⟨fun _ _ => rfl, fun _ _ _ => rfl, fun _ _ _ => rfl⟩

/-- Settles O29: the same instruction is fetched, and executing does not look at the stream. -/
theorem bytesOutsideUnread : Obligations.BytesOutsideUnread := by
  intro s i m hrun hi hm
  obtain ⟨rest, hd⟩ := (s.fetch_ok_iff i).1 hi
  have hmax := decode_length_le hd
  have hfetch : (s.withStream m).fetch = .ok i := State.fetch_of_bytes hd fun a ha => by
    rw [s.fetchWindow_getElem? (by omega)]
    exact hm _ (Nat.le_add_right _ _) (Nat.add_lt_add_left ha _)
  refine ⟨_, step_of_fetch_ok hrun hi, ?_⟩
  have hstep := step_of_fetch_ok (s := s.withStream m) hrun hfetch
  rw [(State.withStream_keepsRegisterFile m).execute s i.format] at hstep
  exact hstep

/-! ### The record of a step -/

theorem stepRecord_of_halted {s : State} (h : s.status ≠ .run) : stepRecord s = none := by
  unfold stepRecord
  cases hs : s.status with
  | run => exact absurd hs h
  | haltExhausted => rfl
  | haltUnrecognized => rfl

theorem stepRecord_of_fetch_error {s : State} {f : Failure} (hf : s.fetch = .error f) : stepRecord s = none := by
  cases hr : stepRecord s with
  | none => rfl
  | some r =>
    obtain ⟨i, hi, _⟩ := stepRecord_eq_some hr
    rw [hf] at hi
    cases hi

theorem formatMnemonic_eq_jnz_iff (f : Format) : formatMnemonic f = .jump .jnz ↔ ∃ v, f = .j .jnz v := by
  cases f <;> simp [formatMnemonic]

/-- A record is taken exactly for a jnz with ZF = 0 (rules R125, R181). -/
theorem recordOf_taken_iff (i : Instr) (s : State) :
    (recordOf i s).taken = true ↔ (∃ v, i.format = .j .jnz v) ∧ s.zf = false := by
  cases hf : i.format with
  | j c v =>
    cases c with
    | jnz => simp [recordOf, hf, jnzTaken]
    | _ => simp [recordOf, hf]
  | _ => simp [recordOf, hf]

/-- The pointer after an instruction, by the record's `taken` (rules R180, R181). -/
theorem State.nextPc_of_taken {i : Instr} {s : State} (h : (recordOf i s).taken = true) :
    ∃ v : Byte, (recordOf i s).source = .immediate (zext16 v) ∧ s.nextPc i.format = zext16 v := by
  obtain ⟨⟨v, hf⟩, hz⟩ := (recordOf_taken_iff i s).1 h
  exact ⟨v, by simp [recordOf, hf, formatSource], by simp [State.nextPc, hf, jnzTaken, hz]⟩

theorem State.nextPc_of_not_taken {i : Instr} {s : State} (h : (recordOf i s).taken = false) :
    s.nextPc i.format = s.pc + BitVec.ofNat 16 i.length := by
  by_cases hj : ∃ v, i.format = .j .jnz v
  · obtain ⟨v, hf⟩ := hj
    have hz : s.zf = true := by simpa [recordOf, hf, jnzTaken] using h
    simp [State.nextPc, Instr.length, hf, jnzTaken, hz]
  · exact s.nextPc_of_not_jnz fun v hf => hj ⟨v, hf⟩

/-- The advance past a fetched instruction does not wrap (rule R28). -/
theorem State.advance_toNat {s : State} {i : Instr} (h : s.fetch = .ok i) :
    (s.pc + BitVec.ofNat 16 i.length).toNat = s.pc.toNat + i.length := by
  have hin := State.fetch_ok_inside h
  have hN := s.stream.length.isLt
  have hsize : s.stream.size = s.stream.length.toNat := rfl
  simp only [BitVec.toNat_add, BitVec.toNat_ofNat, Nat.add_mod_mod]
  exact Nat.mod_eq_of_lt (by rw [Instr.length]; omega)

/-- Settles O34, by the three cases of a step: only an executed instruction leaves the core running and emits a record,
whose `taken` and `skipped` tell what it does. -/
theorem recordExplainsStep : Obligations.RecordExplainsStep := by
  intro s t h
  rcases step_result_cases h with ⟨hhalt, rfl⟩ | ⟨hrun, f, hf, rfl⟩ | ⟨hrun, i, hi, hrec, rfl⟩
  · simp [stepRecord_of_halted hhalt, hhalt]
  · simp [stepRecord_of_fetch_error hf, failureStatus_ne_run]
  · obtain ⟨_, hstatus, _, _⟩ := s.execute_frame i.format
    rw [hrec]
    refine ⟨by simp [hstatus, hrun], ?_⟩
    rintro r ⟨⟩
    refine ⟨rfl, ?_, fun ht => ?_, fun ht => ?_, fun hs => ?_⟩
    · rw [recordOf_taken_iff, recordOf_mnemonic, formatMnemonic_eq_jnz_iff]
    · obtain ⟨v, hsource, hpc⟩ := State.nextPc_of_taken ht
      have hv := v.isLt
      rw [State.setPc_pc, hpc, zext16_toNat]
      exact ⟨hsource, by omega⟩
    · have hin := State.fetch_ok_inside hi
      rw [State.setPc_pc, State.nextPc_of_not_taken ht, State.advance_toNat hi]
      exact ⟨rfl, hin⟩
    · rw [State.execute_of_skipped hs]
      exact ⟨fun _ => rfl, rfl, rfl⟩

/-! ### Memory operands -/

theorem State.advance_keeps (s : State) (n : Nat) :
    KeepsRegs s (s.advance n) ∧ KeepsFlags s (s.advance n) ∧ KeepsRest s (s.advance n) ∧
    AdvancesBy n s (s.advance n) :=
  ⟨fun _ => rfl, ⟨rfl, rfl⟩, ⟨rfl, rfl, rfl, fun _ => rfl⟩, rfl⟩

/-- A skipped instruction advances the pointer and does nothing else (rule R128). -/
theorem exec_of_skipped {i : Instr} (h : recordSkipped (formatDest i.format) (formatSource i.format) = true)
    (s : State) : exec i s = .next (s.advance i.length) := by
  have hpc : s.nextPc i.format = s.pc + BitVec.ofNat 16 (formatLength i.format) :=
    s.nextPc_of_not_jnz fun v hf => by rw [hf] at h; cases h
  rw [exec_eq, State.execute_of_skipped h, hpc]
  rfl

/-- Settles O48: a memory operand makes every one of these instructions skipped. -/
theorem memoryOperandsSkip : Obligations.MemoryOperandsSkip := by
  intro s d w reg m sign imm hwf hm
  have hmem := decide_eq_true (modeOf_ne_registerMode hm)
  have hdisp := dispBytes_length_of_wf hwf
  refine ⟨fun i hi => ?_, fun i hi => ?_⟩
  · obtain ⟨op, hf⟩ : ∃ op, i.format = .rm op d w reg m := by
      simp only [List.mem_cons, List.not_mem_nil, or_false] at hi
      rcases hi with rfl | rfl | rfl | rfl <;> exact ⟨_, rfl⟩
    have hlen : i.length = 2 + (dispBytes m).length := by rw [Instr.length, hf, hdisp]; rfl
    exact ⟨_, exec_of_skipped (by rw [hf, recordSkipped_rm, hmem]) s, hlen ▸ s.advance_keeps _⟩
  · obtain ⟨op, hf⟩ : ∃ op, i.format = .gi op sign w m imm := by
      simp only [List.mem_cons, List.not_mem_nil, or_false] at hi
      rcases hi with rfl | rfl | rfl <;> exact ⟨_, rfl⟩
    have hlen : i.length = 2 + (dispBytes m).length + (immBytes imm).length := by
      rw [Instr.length, hf, hdisp, immBytes_length]; rfl
    exact ⟨_, exec_of_skipped (by rw [hf, recordSkipped_gi, hmem]) s, hlen ▸ s.advance_keeps _⟩

/-! ### Register mode, and vectors of the spec -/

/-- Settles O9: with mod = 11 the decoded field is the register that its low bits number; the names are two tables. -/
theorem registerModeResolves : Obligations.RegisterModeResolves := by
  refine ⟨fun b1 bs w hmod => ?_, by decide, by decide⟩
  have hmod : field b1 6 2 = 0b11#2 := hmod
  constructor
  · rw [decodeRmField_register hmod]
    rfl
  · rw [headDispCount, hmod]
    rfl

/-- Settles O10, by running the decoder on each of the ten. -/
theorem knownBytesDecode : Obligations.KnownBytesDecode :=
  ⟨rfl, rfl, rfl, rfl, rfl, rfl, rfl, rfl, rfl, rfl⟩

end Sys2Proof.Machine

namespace Sys2Proof.Reference

open Sys2Proof.Machine

/-! ### Registers and flags as numbers -/

/-- The `w` bit of a width as a number (rule R77). -/
def widthNum : Width → Nat
  | .byte => 0
  | .word => 1

theorem widthNum_widthOf_bit (b : Byte) (i : Nat) : widthNum (widthOf (bit b i)) = b.toNat / 2 ^ i % 2 := by
  rw [← bit_toNat]
  cases bit b i <;> rfl

theorem widthNum_bit_zero (b : Byte) : widthNum (widthOf (bit b 0)) = b.toNat % 2 := by
  simpa using widthNum_widthOf_bit b 0

theorem bit_one_iff (b : Byte) : bit b 1 = true ↔ b.toNat / 2 % 2 = 1 := bit_eq_true_iff b 1

theorem field_middle_toNat (b : Byte) : (field b 3 3).toNat = b.toNat / 8 % 8 := field_toNat b 3 3

theorem field_low_toNat (b : Byte) : (field b 0 3).toNat = b.toNat % 8 := by
  simpa using field_toNat b 0 3

theorem reg16_toNat (s : State) (n : RegField) : reg16 s n.toNat = (s.readReg n).toNat := by
  simp [reg16]

theorem setReg16_toNat (s : State) (n : RegField) (v : Word) {a : Nat} (h : a = v.toNat) :
    setReg16 s n.toNat a = s.writeReg n v := by
  simp [setReg16, h]

/-- A byte view's number is the number of its cell, 4 more where it is the high byte (rule R23). -/
theorem viewNum (j : RegField) :
    (j.toNat < 4 ∧ viewIsHigh j = false ∧ j.toNat = (viewCell j).toNat) ∨
    (¬ j.toNat < 4 ∧ viewIsHigh j = true ∧ j.toNat - 4 = (viewCell j).toNat) := by
  revert j; decide

/-- Reading a register operand, in either width (rules R23, R161). -/
theorem readNum_eq {s : State} {n : RegField} {w : Width} {v : Word} (h : s.readOperand (.register n w) = some v) :
    readNum s (widthNum w) n.toNat = v.toNat := by
  cases w with
  | word =>
    obtain rfl : s.readReg n = v := by simpa using h
    simp [readNum, widthNum, reg16_toNat]
  | byte =>
    obtain rfl : zext16 (s.readByteReg n) = v := by simpa using h
    rw [readNum, widthNum, if_neg Nat.zero_ne_one, zext16_toNat, State.readByteReg]
    rcases viewNum n with ⟨hlt, hhigh, hcell⟩ | ⟨hlt, hhigh, hcell⟩
    · rw [if_pos hlt, hhigh, hcell, reg16_toNat]
      exact (lowByte_toNat _).symm
    · rw [if_neg hlt, hhigh, hcell, reg16_toNat]
      exact (highByte_toNat _).symm

/-- Writing a register operand, in either width (rules R24, R163). -/
theorem writeNum_eq (s : State) (n : RegField) (w : Width) (v : Word) :
    writeNum s (widthNum w) n.toNat v.toNat = s.writeOperand (.register n w) v := by
  cases w with
  | word => exact setReg16_toNat s n v rfl
  | byte =>
    rw [State.writeOperand_byte, writeNum, widthNum, if_neg Nat.zero_ne_one, State.writeByteReg]
    rcases viewNum n with ⟨hlt, hhigh, hcell⟩ | ⟨hlt, hhigh, hcell⟩
    · rw [if_pos hlt, hhigh, hcell, reg16_toNat]
      exact setReg16_toNat s _ _ (by rw [join_toNat, highByte_toNat, lowByte_toNat])
    · rw [if_neg hlt, hhigh, hcell, reg16_toNat]
      exact setReg16_toNat s _ _ (by rw [join_toNat, lowByte_toNat, lowByte_toNat])

/-- Both flags of a 16-bit result (rule R162). -/
theorem flagNum_eq (s : State) (r : Word) : flagNum s r.toNat = s.setFlags (zeroFlag r) (signFlag r) := by
  have hz : decide (r.toNat = 0) = zeroFlag r := by
    rw [zeroFlag, Bool.beq_eq_decide_eq, decide_eq_decide, BitVec.toNat_eq]
    rfl
  have hs : decide (32768 ≤ r.toNat) = signFlag r := by
    rw [signFlag, ← BitVec.msb_eq_getLsbD_last, BitVec.msb_eq_decide]
  simp only [flagNum, hz, hs, State.setFlags]

/-- An operation on a register destination, its source's value given as a number (rules R150, R160 to R163). -/
theorem apply_eq {s : State} {source : Operand} {v : Word} (h : s.readOperand source = some v) (op : DataOp)
    (w : Width) (n : RegField) : apply s op (widthNum w) n.toNat v.toNat = s.operate op (.register n w) source := by
  obtain ⟨a, ha⟩ := s.readOperand_register n w
  have hsum : (readNum s (widthNum w) n.toNat + v.toNat) % 65536 = (aluResult .add a v).toNat := by
    simp [readNum_eq ha, aluResult, BitVec.toNat_add]
  have hdiff : (readNum s (widthNum w) n.toNat + 65536 - v.toNat) % 65536 = (aluResult .sub a v).toNat := by
    have := v.isLt
    rw [readNum_eq ha, aluResult, BitVec.toNat_sub]
    omega
  unfold apply
  cases op with
  | mov => exact (writeNum_eq s n w v).trans (State.move_of_value h n w).symm
  | alu op =>
    rw [State.operate, State.arith_of_values ha h]
    cases op with
    | add => simp only [hsum, flagNum_eq, writeNum_eq]; rfl
    | sub => simp only [hdiff, flagNum_eq, writeNum_eq]; rfl
    | cmp => simp only [hdiff, flagNum_eq]; rfl

/-! ### The bytes at `pc` -/

/-- A byte at a place that the decoder is shown, 0 on both sides where it is absent. -/
theorem mem1_eq (s : State) {a : Nat} (ha : a < 6) : mem1 s (s.pc.toNat + a) = (byteAtPos s.fetchWindow a).toNat := by
  rw [mem1, byteAtPos, List.getD_eq_getElem?_getD, s.fetchWindow_getElem? ha]
  cases s.stream.byteAt (s.pc.toNat + a) <;> rfl

theorem mem2_eq (s : State) {a : Nat} (ha : a < 5) : mem2 s (s.pc.toNat + a) = (pairAtPos s.fetchWindow a).toNat := by
  rw [mem2, mem1_eq s (by omega), Nat.add_assoc, mem1_eq s (by omega), pairAtPos, le16, join_toNat]
  omega

/-! ### The head -/

/-- What the opcode ranges of rules R80 and R81 say of an opcode byte, by its kind in the matcher's table (rule R112). -/
def opcodeAgrees (b0 : Nat) : Option OuterKind → Bool
  | some (.rmReg op) => rmOp b0 = some op
  | some (.immAcc op) => rmOp b0 = none ∧ accOp b0 = some (.alu op)
  | some .grpImmRm => rmOp b0 = none ∧ accOp b0 = none ∧ 0x80 ≤ b0 ∧ b0 ≤ 0x83
  | some .movImmReg => rmOp b0 = none ∧ accOp b0 = none ∧ 0xB0 ≤ b0 ∧ b0 ≤ 0xBF
  | some (.jcc c) =>
    rmOp b0 = none ∧ accOp b0 = none ∧
      ((0x70 ≤ b0 ∧ b0 ≤ 0x7F) ∨ (0xE0 ≤ b0 ∧ b0 ≤ 0xE3)) ∧ (b0 = 0x75 ↔ c = .jnz)
  | none => rmOp b0 = none ∧ accOp b0 = none

theorem opcodeAgrees_matchHead (b0 : Byte) : opcodeAgrees b0.toNat (matchHead b0) = true := by
  revert b0; decide

/-- The same of a whole head, by its kind (rules R112 to R114). -/
def HeadAgrees (b0 b1 : Nat) : Option Kind → Prop
  | some (.rmReg op) => rmOp b0 = some op
  | some (.immAcc op) => rmOp b0 = none ∧ accOp b0 = some (.alu op)
  | some (.grpImmRm op) =>
    rmOp b0 = none ∧ accOp b0 = none ∧ groupOpOf b0 b1 = some (.alu op) ∧ 0x80 ≤ b0 ∧ b0 ≤ 0x83
  | some .movImmReg =>
    rmOp b0 = none ∧ accOp b0 = none ∧ groupOpOf b0 b1 = none ∧ 0xB0 ≤ b0 ∧ b0 ≤ 0xBF
  | some (.jcc c) =>
    rmOp b0 = none ∧ accOp b0 = none ∧ groupOpOf b0 b1 = none ∧
      ((0x70 ≤ b0 ∧ b0 ≤ 0x7F) ∨ (0xE0 ≤ b0 ∧ b0 ≤ 0xE3)) ∧ (b0 = 0x75 ↔ c = .jnz)
  | none =>
    rmOp b0 = none ∧ accOp b0 = none ∧ groupOpOf b0 b1 = none ∧
      ¬ ((0x70 ≤ b0 ∧ b0 ≤ 0x7F) ∨ (0xB0 ≤ b0 ∧ b0 ≤ 0xBF) ∨ (0xE0 ≤ b0 ∧ b0 ≤ 0xE3))

theorem groupOpOf_of_ne {b0 b1 : Nat} (h : ¬ (0x80 ≤ b0 ∧ b0 ≤ 0x83)) : groupOpOf b0 b1 = none := if_neg h

/-- The sub-operation of a group head (rule R113). -/
theorem groupOpOf_group {b0 : Nat} (h : 0x80 ≤ b0 ∧ b0 ≤ 0x83) (b1 : Byte) :
    groupOpOf b0 b1.toNat = (groupOp (field b1 3 3)).map .alu := by
  have hsub : b1.toNat / 8 % 8 = (field b1 3 3).toNat := (field_toNat b1 3 3).symm
  rw [groupOpOf, if_pos h, hsub]
  generalize field b1 3 3 = subop
  revert subop; decide

/-- Both designs recognize the same heads, with the same operation. -/
theorem headAgrees_classify (b0 b1 : Byte) : HeadAgrees b0.toNat b1.toNat (classify b0 b1) := by
  have h := opcodeAgrees_matchHead b0
  unfold classify
  cases hm : matchHead b0 with
  | none =>
    rw [hm] at h
    obtain ⟨hrm, hacc⟩ := of_decide_eq_true h
    have hrange := (matchHead_eq_none_iff b0).1 hm
    exact ⟨hrm, hacc, groupOpOf_of_ne (by omega), by omega⟩
  | some k =>
    rw [hm] at h
    cases k with
    | rmReg op => exact (of_decide_eq_true h : rmOp b0.toNat = some op)
    | immAcc op =>
      obtain ⟨hrm, hacc⟩ := of_decide_eq_true h
      exact ⟨hrm, hacc⟩
    | movImmReg =>
      obtain ⟨hrm, hacc, hlo, hhi⟩ := of_decide_eq_true h
      exact ⟨hrm, hacc, groupOpOf_of_ne (by omega), hlo, hhi⟩
    | jcc c =>
      obtain ⟨hrm, hacc, hrange, hjnz⟩ := of_decide_eq_true h
      exact ⟨hrm, hacc, groupOpOf_of_ne (by omega), hrange, hjnz⟩
    | grpImmRm =>
      obtain ⟨hrm, hacc, hlo, hhi⟩ := of_decide_eq_true h
      have hgrp := groupOpOf_group ⟨hlo, hhi⟩ b1
      show HeadAgrees b0.toNat b1.toNat ((groupOp (field b1 3 3)).map .grpImmRm)
      cases hop : groupOp (field b1 3 3) with
      | none => exact ⟨hrm, hacc, by rw [hgrp, hop]; rfl, by omega⟩
      | some op => exact ⟨hrm, hacc, by rw [hgrp, hop]; rfl, hlo, hhi⟩

theorem dataCount_eq (w : Width) : dataCount w = 1 + widthNum w := by cases w <;> rfl

theorem nd_eq (b1 : Byte) : nd b1.toNat = headDispCount b1 := by
  revert b1; decide

/-- The group's data byte count (rule R88). -/
theorem groupNi_eq (op : AluOp) {b0 : Byte} (h : 0x80 ≤ b0.toNat ∧ b0.toNat ≤ 0x83) :
    groupNi (.alu op) b0.toNat = grpDataCount op (bit b0 1) (widthOf (bit b0 0)) := by
  revert b0; cases op <;> decide

/-- The head gives the same length (rules R90 to R92). -/
theorem lengthOf_eq (b0 b1 : Byte) :
    lengthOf b0.toNat b1.toNat = (classify b0 b1).map fun k => headLength k b0 b1 := by
  have h := headAgrees_classify b0 b1
  cases hk : classify b0 b1 with
  | none =>
    rw [hk] at h
    obtain ⟨hrm, hacc, hgrp, hrange⟩ := h
    simp only [lengthOf, hrm, hacc, hgrp]
    rw [if_neg (by omega), if_neg (by omega), if_neg (by omega)]
    rfl
  | some k =>
    rw [hk] at h
    cases k with
    | rmReg op =>
      have hrm : rmOp b0.toNat = some op := h
      simp [lengthOf, hrm, nd_eq, headLength]
    | immAcc op =>
      obtain ⟨hrm, hacc⟩ := h
      have hw := widthNum_widthOf_bit b0 0
      simp only [lengthOf, hrm, hacc, headLength, headDataCount, dataCount_eq, Option.map_some, Option.some.injEq]
      omega
    | grpImmRm op =>
      obtain ⟨hrm, hacc, hgrp, hrange⟩ := h
      simp [lengthOf, hrm, hacc, hgrp, nd_eq, groupNi_eq op hrange, headLength, headDataCount]
    | movImmReg =>
      obtain ⟨hrm, hacc, hgrp, hlo, hhi⟩ := h
      have hw := widthNum_widthOf_bit b0 3
      simp only [lengthOf, hrm, hacc, hgrp, headLength, headDataCount, dataCount_eq, Option.map_some]
      by_cases hlow : b0.toNat ≤ 0xB7
      · rw [if_pos ⟨hlo, hlow⟩]
        exact congrArg some (by omega)
      · rw [if_neg (by omega), if_pos (by omega)]
        exact congrArg some (by omega)
    | jcc c =>
      obtain ⟨hrm, hacc, hgrp, hrange, _⟩ := h
      simp only [lengthOf, hrm, hacc, hgrp]
      rw [if_neg (by omega), if_neg (by omega), if_pos hrange]
      rfl

/-! ### The effect -/

/-- The immediate after the opcode byte (rules R87, R89). -/
theorem plainImmValue_decodeImm (s : State) (w : Width) :
    (plainImmValue (decodeImm (dataCount w) 1 s.fetchWindow)).toNat =
      if widthNum w = 1 then mem2 s (s.pc.toNat + 1) else mem1 s (s.pc.toNat + 1) := by
  cases w with
  | byte => exact (zext16_toNat _).trans (mem1_eq s (by omega)).symm
  | word => exact (mem2_eq s (by omega)).symm

/-- An operation of a register with the immediate that follows the opcode byte (formats IR and IA, rules R73, R74). -/
theorem apply_plainImm (s : State) (op : DataOp) (w : Width) (n : RegField) :
    apply s op (widthNum w) n.toNat
        (if widthNum w = 1 then mem2 s (s.pc.toNat + 1) else mem1 s (s.pc.toNat + 1)) =
      s.operate op (.register n w) (.immediate (plainImmValue (decodeImm (dataCount w) 1 s.fetchWindow))) := by
  rw [← plainImmValue_decodeImm]
  exact apply_eq rfl op w n

/-- The group's immediate, read after the displacement (rules R88, R89). -/
theorem groupImmValue_decodeImm (s : State) (op : AluOp) (sign : Bool) (w : Width) {a : Nat} (ha : a < 5) :
    (groupImmValue sign w (decodeImm (grpDataCount op sign w) a s.fetchWindow)).toNat =
      if widthNum w = 0 then mem1 s (s.pc.toNat + a)
      else if grpDataCount op sign w = 2 then mem2 s (s.pc.toNat + a)
      else if sign = true ∧ 128 ≤ mem1 s (s.pc.toNat + a) then mem1 s (s.pc.toNat + a) + 0xFF00
      else mem1 s (s.pc.toNat + a) := by
  rw [mem1_eq s (by omega), mem2_eq s ha]
  cases w with
  | byte =>
    have hone : grpDataCount op sign .byte = 1 := by cases op <;> cases sign <;> rfl
    rw [hone]
    exact zext16_toNat _
  | word =>
    rw [if_neg (show ¬ widthNum .word = 0 from Nat.one_ne_zero)]
    rcases grpDataCount_one_or_two op sign .word with hone | htwo
    · rw [hone]
      cases sign with
      | true => simpa [decodeImm, groupImmValue] using sext16_toNat _
      | false => simpa [decodeImm, groupImmValue] using zext16_toNat _
    · rw [htwo]
      rfl

/-- The mod bits that name a register (rules R82, R116). -/
theorem registerMode_iff (b1 : Byte) : b1.toNat / 64 = 3 ↔ field b1 6 2 = 0b11#2 := by
  revert b1; decide

/-- Format RM, by the mod bits and then by the direction (rules R78, R121, R128). -/
theorem effect_rm (s : State) {b0 b1 : Byte} {op : DataOp} (hrm : rmOp b0.toNat = some op) :
    effect s b0.toNat b1.toNat = s.execute (decodeFields (.rmReg op) b0 b1 s.fetchWindow) := by
  simp only [effect, hrm, decodeFields]
  by_cases hmod : b1.toNat / 64 = 3
  · rw [if_neg (not_not.2 hmod), decodeRmField_register ((registerMode_iff b1).1 hmod), State.execute_rm,
      ← widthNum_bit_zero, ← field_middle_toNat, ← field_low_toNat]
    by_cases hd : bit b0 1 = true
    · obtain ⟨v, hv⟩ := s.readOperand_register (field b1 0 3) (widthOf (bit b0 0))
      rw [if_pos ((bit_one_iff b0).1 hd), hd, readNum_eq hv]
      exact apply_eq hv _ _ _
    · obtain ⟨v, hv⟩ := s.readOperand_register (field b1 3 3) (widthOf (bit b0 0))
      rw [if_neg (mt (bit_one_iff b0).2 hd), Bool.eq_false_iff.2 hd, readNum_eq hv]
      exact apply_eq hv _ _ _
  · have hmem := modeOf_decodeRmField (mt (registerMode_iff b1).2 hmod) s.fetchWindow
    rw [if_pos hmod, State.execute_of_skipped (by rw [recordSkipped_rm, decide_eq_true hmem])]

/-- Format GI, by the mod bits (rules R88, R89, R128). -/
theorem effect_gi (s : State) {b0 b1 : Byte} {op : AluOp} (hrm : rmOp b0.toNat = none) (hacc : accOp b0.toNat = none)
    (hgrp : groupOpOf b0.toNat b1.toNat = some (.alu op)) (hrange : 0x80 ≤ b0.toNat ∧ b0.toNat ≤ 0x83) :
    effect s b0.toNat b1.toNat = s.execute (decodeFields (.grpImmRm op) b0 b1 s.fetchWindow) := by
  simp only [effect, hrm, hacc, hgrp, decodeFields, headDataCount]
  by_cases hmod : b1.toNat / 64 = 3
  · have hpos : 2 + headDispCount b1 < 5 := by have := headDispCount_le b1; omega
    rw [if_neg (not_not.2 hmod), decodeRmField_register ((registerMode_iff b1).1 hmod), State.execute_gi,
      ← widthNum_bit_zero, ← field_low_toNat, nd_eq, groupNi_eq op hrange, Nat.add_assoc]
    simp only [← bit_one_iff b0]
    rw [← groupImmValue_decodeImm s op _ _ hpos]
    exact apply_eq rfl _ _ _
  · have hmem := modeOf_decodeRmField (mt (registerMode_iff b1).2 hmod) s.fetchWindow
    rw [if_pos hmod, State.execute_of_skipped (by rw [recordSkipped_gi, decide_eq_true hmem])]

/-- Format IR, by the w bit, which splits the range of its opcodes in two (rule R73). -/
theorem effect_ir (s : State) {b0 b1 : Byte} (hrm : rmOp b0.toNat = none) (hacc : accOp b0.toNat = none)
    (hgrp : groupOpOf b0.toNat b1.toNat = none) (hrange : 0xB0 ≤ b0.toNat ∧ b0.toNat ≤ 0xBF) :
    effect s b0.toNat b1.toNat = s.execute (decodeFields .movImmReg b0 b1 s.fetchWindow) := by
  have hw : widthNum (widthOf (bit b0 3)) = b0.toNat / 8 % 2 := widthNum_widthOf_bit b0 3
  simp only [effect, hrm, hacc, hgrp, decodeFields, headDataCount, State.execute_ir, decodeImm_dataCount_width]
  rw [← apply_plainImm, field_low_toNat]
  by_cases hlow : b0.toNat ≤ 0xB7
  · rw [if_pos ⟨hrange.1, hlow⟩, show widthNum (widthOf (bit b0 3)) = 0 by omega]
    rfl
  · rw [if_neg (by omega), if_pos (by omega), show widthNum (widthOf (bit b0 3)) = 1 by omega]
    rfl

/-- Step 9 of rule R126, on registers and flags. -/
theorem effect_eq (s : State) {b0 b1 : Byte} {k : Kind} (hk : classify b0 b1 = some k) :
    effect s b0.toNat b1.toNat = s.execute (decodeFields k b0 b1 s.fetchWindow) := by
  have h := headAgrees_classify b0 b1
  rw [hk] at h
  cases k with
  | rmReg op => exact effect_rm s h
  | immAcc op =>
    obtain ⟨hrm, hacc⟩ := h
    simp only [effect, hrm, hacc, decodeFields, State.execute_ia, headDataCount, decodeImm_dataCount_width]
    rw [← widthNum_bit_zero]
    exact apply_plainImm s _ _ 0
  | grpImmRm op =>
    obtain ⟨hrm, hacc, hgrp, hrange⟩ := h
    exact effect_gi s hrm hacc hgrp hrange
  | movImmReg =>
    obtain ⟨hrm, hacc, hgrp, hrange⟩ := h
    exact effect_ir s hrm hacc hgrp hrange
  | jcc c =>
    obtain ⟨hrm, hacc, hgrp, hrange, _⟩ := h
    simp only [effect, hrm, hacc, hgrp]
    rw [if_neg (by omega), if_neg (by omega)]
    rfl

/-! ### The step -/

/-- The head of jnz, the one instruction that can jump (rule R81). -/
theorem opcode_eq_jnz_iff {b0 b1 : Byte} {k : Kind} (hk : classify b0 b1 = some k) : b0.toNat = 0x75 ↔ k = .jcc .jnz := by
  constructor
  · intro h
    obtain rfl : b0 = 0x75 := BitVec.eq_of_toNat_eq h
    exact Option.some.inj (hk.symm.trans rfl)
  · rintro rfl
    have h := headAgrees_classify b0 b1
    rw [hk] at h
    obtain ⟨_, _, _, _, hjnz⟩ := h
    exact hjnz.2 rfl

theorem kind_of_decodeFields_jnz {k : Kind} {b0 b1 v : Byte} {bs : List Byte}
    (h : decodeFields k b0 b1 bs = .j .jnz v) : k = .jcc .jnz := by
  cases k with
  | jcc c =>
    obtain ⟨rfl, _⟩ := Format.j.inj h
    rfl
  | _ => cases h

/-- Step 10 of rule R126. -/
theorem nextPc_eq (s : State) {b0 b1 : Byte} {k : Kind} (hk : classify b0 b1 = some k) (bs : List Byte) :
    s.nextPc (decodeFields k b0 b1 bs) =
      if b0.toNat = 0x75 ∧ s.zf = false then BitVec.ofNat 16 b1.toNat
      else BitVec.ofNat 16 (s.pc.toNat + headLength k b0 b1) := by
  have hadd : ∀ n, s.pc + BitVec.ofNat 16 n = BitVec.ofNat 16 (s.pc.toNat + n) := fun n => by
    rw [BitVec.ofNat_add, BitVec.ofNat_toNat, BitVec.setWidth_eq]
  rw [← hadd, ← formatLength_decodeFields k b0 b1 bs]
  simp only [opcode_eq_jnz_iff hk]
  by_cases hjnz : k = .jcc .jnz
  · subst hjnz
    cases hz : s.zf
    · simp [decodeFields, State.nextPc, jnzTaken, hz, zext16]
    · simp [decodeFields, State.nextPc, jnzTaken, hz]
  · rw [if_neg fun h => hjnz h.1]
    exact s.nextPc_of_not_jnz fun v h => hjnz (kind_of_decodeFields_jnz h)

theorem referenceStep_of_halted {s : State} (h : s.status ≠ .run) : referenceStep s = s := if_pos h

theorem referenceStep_of_no_head {s : State} (hrun : s.status = .run) (h : s.stream.size < s.pc.toNat + 2) :
    referenceStep s = s.raise .streamExhausted := by
  rw [referenceStep, if_neg (not_not.2 hrun), if_pos h]
  rfl

/-- The first two bytes shown to the decoder are those that the reference reads as numbers. -/
theorem mem1_head {s : State} {b0 b1 : Byte} {tl : List Byte} (hw : s.fetchWindow = b0 :: b1 :: tl) :
    ¬ s.stream.size < s.pc.toNat + 2 ∧ mem1 s s.pc.toNat = b0.toNat ∧ mem1 s (s.pc.toNat + 1) = b1.toNat := by
  refine ⟨mt (s.fetchWindow_length_lt_iff (by omega)).2 (by simp [hw]), ?_, ?_⟩
  · simpa [hw, byteAtPos] using mem1_eq s (a := 0) (by omega)
  · simpa [hw, byteAtPos] using mem1_eq s (a := 1) (by omega)

section
variable {s : State} {b0 b1 : Byte} {tl : List Byte} (hrun : s.status = .run) (hw : s.fetchWindow = b0 :: b1 :: tl)
include hrun hw

theorem referenceStep_of_unmatched (hk : classify b0 b1 = none) :
    referenceStep s = s.raise (.unrecognizedOpcode (join b0 b1)) := by
  obtain ⟨hsize, h0, h1⟩ := mem1_head hw
  have hlen : lengthOf b0.toNat b1.toNat = none := by rw [lengthOf_eq, hk, Option.map_none]
  have hhead : BitVec.ofNat 16 (256 * b0.toNat + b1.toNat) = join b0 b1 := by
    rw [Nat.mul_comm, ← join_toNat, BitVec.ofNat_toNat, BitVec.setWidth_eq]
  simp only [referenceStep, hrun, hsize, h0, h1, hlen, hhead]
  rfl

/-- With a matched head the reference fails where the instruction is cut, and otherwise does steps 9 and 10. -/
theorem referenceStep_of_matched {k : Kind} (hk : classify b0 b1 = some k) :
    referenceStep s = if s.stream.size < s.pc.toNat + headLength k b0 b1 then s.raise .streamExhausted
      else (s.execute (decodeFields k b0 b1 s.fetchWindow)).setPc
        (s.nextPc (decodeFields k b0 b1 s.fetchWindow)) := by
  obtain ⟨hsize, h0, h1⟩ := mem1_head hw
  have hlen : lengthOf b0.toNat b1.toNat = some (headLength k b0 b1) := by rw [lengthOf_eq, hk, Option.map_some]
  simp only [referenceStep, hrun, hsize, h0, h1, hlen, nextPc_eq s hk, ← effect_eq s hk, apply_ite (State.setPc _)]
  rfl

end

/-- Settles O28: both designs look at the same head, fail at the same three places, and otherwise do the same to
registers, flags and pointer. -/
theorem stepIsReferenceStep : Obligations.StepIsReferenceStep := by
  intro s
  by_cases hrun : s.status = .run
  · rcases Nat.lt_or_ge s.stream.size (s.pc.toNat + 2) with hhead | hhead
    · rw [step_of_fetch_error hrun (State.fetch_of_no_head hhead), referenceStep_of_no_head hrun hhead]
    · obtain ⟨b0, b1, tl, hw⟩ := State.fetchWindow_head hhead
      cases hk : classify b0 b1 with
      | none =>
        rw [step_of_fetch_error hrun (State.fetch_of_unmatched hw hk), referenceStep_of_unmatched hrun hw hk]
      | some k =>
        rw [referenceStep_of_matched hrun hw hk]
        rcases Nat.lt_or_ge s.stream.size (s.pc.toNat + headLength k b0 b1) with hlen | hlen
        · rw [step_of_fetch_error hrun (State.fetch_of_cut hw hk hlen), if_pos hlen]
        · rw [step_of_fetch_ok hrun (State.fetch_of_whole hw hk hlen), Format.format_toInstr,
            if_neg (Nat.not_lt.2 hlen)]
  · rw [step_of_halted hrun, referenceStep_of_halted hrun]

end Sys2Proof.Reference
end

section
/-! The family of 41_mov.md: what writing a register or a byte view establishes, then a move to a register in either
width, whatever its source, and the two mov instructions as such moves. -/

namespace Sys2Proof.Machine

/-! ### Writing a destination register -/

theorem State.writeReg_wordWritten (s : State) (n : RegField) (v : Word) : WordWritten n v s (s.writeReg n v) :=
  ⟨s.readReg_writeReg_same n v, fun _ hr => s.readReg_writeReg_other v hr⟩

theorem State.writeByteReg_byteWritten (s : State) (j : RegField) (v : Byte) :
    ByteWritten j v s (s.writeByteReg j v) := by
  refine ⟨?_, fun i hi => ?_, fun r hr => s.readReg_writeByteReg_upper j r v hr⟩
  · rw [State.readByteReg_writeByteReg, if_pos rfl]
  · rw [State.readByteReg_writeByteReg, if_neg hi]

/-! ### Format RM between registers -/

@[simp] theorem rmDest_reg (d : Direction) (w : Width) (reg r : RegField) :
    rmDest d w reg (.reg r) = .register (destNumber d reg r) w := by cases d <;> rfl

@[simp] theorem rmSource_reg (d : Direction) (w : Width) (reg r : RegField) :
    rmSource d w reg (.reg r) = .register (sourceNumber d reg r) w := by cases d <;> rfl

/-! ### A move to a register -/

/-- A move leaves flags, latches and stream alone, whatever its operands; the pointer passes the instruction. -/
theorem State.move_advance_keeps (s : State) (dest source : Operand) (len : Nat) :
    KeepsFlags s ((s.move dest source).advance len) ∧ AdvancesBy len s ((s.move dest source).advance len) ∧
    KeepsRest s ((s.move dest source).advance len) := by
  obtain ⟨hpc, hzf, hsf, hstatus, herr, hstream⟩ := s.move_frame dest source
  exact ⟨⟨hzf, hsf⟩, congrArg (· + BitVec.ofNat 16 len) hpc,
    hstatus, herr, congrArg Memory.length hstream, fun a => congrArg (Memory.byteAt · a) hstream⟩

/-- A move at w = 1 (rule R150). The source may be the destination. -/
theorem runMove_word {s : State} {source : Operand} {v : Word} (h : s.readOperand source = some v) (n : RegField)
    (len : Nat) : ∃ t, runMove (.register n .word) source len s = .next t ∧ WordWritten n v s t ∧
      KeepsFlags s t ∧ AdvancesBy len s t ∧ KeepsRest s t := by
  refine ⟨_, rfl, ?_, s.move_advance_keeps _ source len⟩
  rw [State.move_of_value h, State.writeOperand_word]
  exact s.writeReg_wordWritten n v

/-- A move at w = 0 (rules R24, R150): the source's byte comes widened with zeros, and its low part is written. -/
theorem runMove_byte {s : State} {source : Operand} {v : Byte} (h : s.readOperand source = some (zext16 v))
    (j : RegField) (len : Nat) : ∃ t, runMove (.register j .byte) source len s = .next t ∧ ByteWritten j v s t ∧
      KeepsFlags s t ∧ AdvancesBy len s t ∧ KeepsRest s t := by
  refine ⟨_, rfl, ?_, s.move_advance_keeps _ source len⟩
  rw [State.move_of_value h, State.writeOperand_byte, lowByte_zext16]
  exact s.writeByteReg_byteWritten j v

/-! ### The two mov instructions -/

theorem exec_movRmReg_reg (d : Direction) (w : Width) (reg r : RegField) (s : State) :
    exec (.movRmReg d w reg (.reg r)) s =
      runMove (.register (destNumber d reg r) w) (.register (sourceNumber d reg r) w) 2 s := by
  rw [← rmDest_reg, ← rmSource_reg]
  rfl

theorem exec_movImmReg (reg : RegField) (imm : Imm) (s : State) :
    exec (.movImmReg reg imm) s =
      runMove (.register reg (immWidth imm)) (.immediate (plainImmValue imm)) (1 + immCount imm) s := rfl

/-- Settles O36: with mod = 11 the instruction is a move of the source register's value. -/
theorem movRegisterWord : Obligations.MovRegisterWord := by
  intro s d reg r
  rw [exec_movRmReg_reg]
  exact runMove_word (s.readOperand_word _) _ 2

/-- Settles O37: with mod = 11 the instruction is a move of the source view's byte. -/
theorem movRegisterByte : Obligations.MovRegisterByte := by
  intro s d reg r
  rw [exec_movRmReg_reg]
  exact runMove_byte (s.readOperand_byte _) _ 2

/-- Settles O38: the number of data bytes tells the width of the move and the length. -/
theorem movImmediate : Obligations.MovImmediate := by
  intro s reg
  refine ⟨fun v => ?_, fun v => ?_⟩
  · rw [exec_movImmReg]
    exact runMove_word (s.readOperand_immediate v) reg 3
  · rw [exec_movImmReg]
    exact runMove_byte (s.readOperand_immediate (zext16 v)) reg 2

end Sys2Proof.Machine
end

section
/-! The family of 42_add_sub_cmp.md: the flags of a result, then an arithmetic operation on a register in either width,
whatever its source, then the three formats as such operations, said once for add, sub and cmp. -/

namespace Sys2Proof.Machine

/-! ### The flags of a 16-bit result -/

theorem zeroFlag_eq_true_iff (r : Word) : zeroFlag r = true ↔ r = 0 := beq_iff_eq

theorem signFlag_eq_true_iff (r : Word) : signFlag r = true ↔ 2 ^ 15 ≤ r.toNat := by
  rw [signFlag, ← BitVec.msb_eq_getLsbD_last, BitVec.msb_eq_decide, decide_eq_true_iff]

theorem FlagsOf.of_eq {t : State} {r : Word} (hz : t.zf = zeroFlag r) (hs : t.sf = signFlag r) : FlagsOf r t := by
  rw [FlagsOf, hz, hs]
  exact ⟨zeroFlag_eq_true_iff r, signFlag_eq_true_iff r⟩

/-! ### Bytes in the 16-bit datapath -/

theorem lowByte_eq_ofNat (r : Word) : lowByte r = BitVec.ofNat 8 r.toNat :=
  BitVec.eq_of_toNat_eq (by rw [lowByte_toNat, BitVec.toNat_ofNat])

/-- The byte that add writes at w = 0 is the sum modulo 256 (rule R173). -/
theorem ofNat_toNat_zext_add (a b : Byte) : BitVec.ofNat 8 (a.setWidth 16 + b.setWidth 16).toNat = a + b := by
  bv_omega

/-- The byte that sub writes at w = 0 is the difference modulo 256 (rule R173). -/
theorem ofNat_toNat_zext_sub (a b : Byte) : BitVec.ofNat 8 (a.setWidth 16 - b.setWidth 16).toNat = a - b := by
  bv_omega

/-- A sum of bytes does not wrap at 16 bits. -/
theorem zext_add_eq_zero_iff (a b : Byte) : a.setWidth 16 + b.setWidth 16 = (0 : Word) ↔ a = 0 ∧ b = 0 := by
  bv_omega

theorem zext_add_lt (a b : Byte) : (a.setWidth 16 + b.setWidth 16 : Word).toNat < 2 ^ 15 := by
  bv_omega

theorem zext_sub_eq_zero_iff (a b : Byte) : a.setWidth 16 - b.setWidth 16 = (0 : Word) ↔ a = b := by
  bv_omega

/-- At w = 0 bit 15 of a difference is the borrow (rule R173). -/
theorem le_zext_sub_iff (a b : Byte) : 2 ^ 15 ≤ (a.setWidth 16 - b.setWidth 16 : Word).toNat ↔ a.toNat < b.toNat := by
  bv_omega

theorem word_add_eq_zero_iff (a b : Word) : a + b = 0 ↔ a.toNat + b.toNat = 0 ∨ a.toNat + b.toNat = 65536 := by
  bv_omega

/-! ### An arithmetic operation on operands that have values -/

theorem isMemory_of_value {s : State} {o : Operand} {v : Word} (h : s.readOperand o = some v) : isMemory o = false :=
  Bool.eq_false_iff.2 fun hm => by
    rw [(s.readOperand_eq_none_iff o).2 hm] at h
    cases h

section
variable {s : State} {dest source : Operand} {a b : Word}
  (ha : s.readOperand dest = some a) (hb : s.readOperand source = some b)
include ha hb

/-- An operation whose operands have values is not skipped (rule R128); `State.arith_of_values` for any destination. -/
theorem State.arith_eq_of_values (op : AluOp) :
    s.arith op dest source =
      (let flagged := s.setFlags (zeroFlag (aluResult op a b)) (signFlag (aluResult op a b))
       if writesBack op then flagged.writeOperand dest (aluResult op a b) else flagged) := by
  simp [State.arith, execSkipped, isMemory_of_value ha, isMemory_of_value hb, ha, hb]

/-- The flag unit: both flags are those of the 16-bit result, whether or not it is written (rule R162). -/
theorem State.arith_flags (op : AluOp) :
    (s.arith op dest source).zf = zeroFlag (aluResult op a b) ∧
    (s.arith op dest source).sf = signFlag (aluResult op a b) := by
  rw [State.arith_eq_of_values ha hb]
  cases writesBack op with
  | false => exact ⟨rfl, rfl⟩
  | true =>
    obtain ⟨_, hz, hs, _⟩ := State.writeOperand_frame
      (s.setFlags (zeroFlag (aluResult op a b)) (signFlag (aluResult op a b))) dest (aluResult op a b)
    exact ⟨hz, hs⟩

/-- Flags, pointer, latches and stream after an add, sub or cmp. -/
theorem State.arith_advance_result (op : AluOp) (len : Nat) :
    FlagsOf (aluResult op a b) ((s.arith op dest source).advance len) ∧
    AdvancesBy len s ((s.arith op dest source).advance len) ∧
    KeepsRest s ((s.arith op dest source).advance len) := by
  obtain ⟨hz, hs⟩ := State.arith_flags ha hb op
  obtain ⟨hpc, hstatus, herr, hstream⟩ := s.arith_frame op dest source
  exact ⟨FlagsOf.of_eq hz hs, congrArg (· + BitVec.ofNat 16 len) hpc,
    hstatus, herr, congrArg Memory.length hstream, fun a => congrArg (Memory.byteAt · a) hstream⟩

/-- cmp writes no register (rule R163). -/
theorem exec_of_runArith_cmp {i : Instr} {len : Nat} (he : exec i s = runArith .cmp dest source len s) :
    ∃ t, exec i s = .next t ∧ KeepsRegs s t ∧ FlagsOf (a - b) t ∧ AdvancesBy len s t ∧ KeepsRest s t := by
  refine ⟨_, he, fun r => ?_, State.arith_advance_result ha hb .cmp len⟩
  rw [State.arith_eq_of_values ha hb]
  rfl

end

section
variable {op : AluOp} (hop : writesBack op = true) {s : State} {source : Operand}
include hop

/-- add and sub at w = 1 (rules R161 to R163). The source may be the destination. -/
theorem runArith_word {b : Word} (hb : s.readOperand source = some b) (n : RegField) (len : Nat) :
    ∃ t, runArith op (.register n .word) source len s = .next t ∧ WordWritten n (aluResult op (s.readReg n) b) s t ∧
      FlagsOf (aluResult op (s.readReg n) b) t ∧ AdvancesBy len s t ∧ KeepsRest s t := by
  have hn := s.readOperand_word n
  refine ⟨_, rfl, ?_, State.arith_advance_result hn hb op len⟩
  rw [State.arith_eq_of_values hn hb, if_pos hop, State.writeOperand_word]
  exact State.writeReg_wordWritten (s.setFlags _ _) n _

/-- add and sub at w = 0: both bytes are widened with zeros, and the low byte of the result is written (rules R161 to
R163). -/
theorem runArith_byte {b : Byte} (hb : s.readOperand source = some (zext16 b)) (j : RegField) (len : Nat) :
    ∃ t, runArith op (.register j .byte) source len s = .next t ∧
      ByteWritten j (BitVec.ofNat 8 (aluResult op (zext16 (s.readByteReg j)) (zext16 b)).toNat) s t ∧
      FlagsOf (aluResult op (zext16 (s.readByteReg j)) (zext16 b)) t ∧ AdvancesBy len s t ∧ KeepsRest s t := by
  have hj := s.readOperand_byte j
  refine ⟨_, rfl, ?_, State.arith_advance_result hj hb op len⟩
  rw [State.arith_eq_of_values hj hb, if_pos hop, State.writeOperand_byte, ← lowByte_eq_ofNat]
  exact State.writeByteReg_byteWritten (s.setFlags _ _) j _

end

/-! ### The three formats, for every operation -/

theorem exec_rm_reg (op : AluOp) (d : Direction) (w : Width) (reg r : RegField) (s : State) :
    exec (Format.rm (.alu op) d w reg (.reg r)).toInstr s =
      runArith op (.register (destNumber d reg r) w) (.register (sourceNumber d reg r) w) 2 s := by
  rw [← rmDest_reg, ← rmSource_reg]
  cases op <;> rfl

theorem exec_ia (op : AluOp) (imm : Imm) (s : State) :
    exec (Format.ia op imm).toInstr s =
      runArith op (.register 0 (immWidth imm)) (.immediate (plainImmValue imm)) (1 + immCount imm) s := by
  cases op <;> rfl

theorem exec_gi_reg (op : AluOp) (sign : Bool) (w : Width) (r : RegField) (imm : Imm) (s : State) :
    exec (Format.gi op sign w (.reg r) imm).toInstr s =
      runArith op (.register r w) (.immediate (groupImmValue sign w imm)) (2 + immCount imm) s := by
  cases op <;> rfl

/-- What an add or sub at w = 1 with the second input `b` and `len` bytes does. -/
def WordArith (op : AluOp) (n : RegField) (b : Word) (len : Nat) (s t : State) : Prop :=
  WordWritten n (aluResult op (s.readReg n) b) s t ∧ FlagsOf (aluResult op (s.readReg n) b) t ∧
  AdvancesBy len s t ∧ KeepsRest s t

/-- What an add or sub at w = 0 with the second byte `b` and `len` bytes does. -/
def ByteArith (op : AluOp) (j : RegField) (b : Byte) (len : Nat) (s t : State) : Prop :=
  ByteWritten j (BitVec.ofNat 8 (aluResult op (zext16 (s.readByteReg j)) (zext16 b)).toNat) s t ∧
  FlagsOf (aluResult op (zext16 (s.readByteReg j)) (zext16 b)) t ∧ AdvancesBy len s t ∧ KeepsRest s t

section
variable {op : AluOp} (hop : writesBack op = true) (s : State)
include hop

/-- add and sub at w = 1 with a register destination, in every format (rules R164 to R167, R170, R171). -/
theorem exec_wordForms :
    (∀ (d : Direction) (reg r : RegField), ∃ t, exec (Format.rm (.alu op) d .word reg (.reg r)).toInstr s = .next t ∧
      WordArith op (destNumber d reg r) (s.readReg (sourceNumber d reg r)) 2 s t) ∧
    (∀ v : Word, ∃ t, exec (Format.ia op (.imm16 v)).toInstr s = .next t ∧ WordArith op 0 v 3 s t) ∧
    (∀ (r : RegField) (v : Word), ∃ t, exec (Format.gi op false .word (.reg r) (.imm16 v)).toInstr s = .next t ∧
      WordArith op r v 4 s t) ∧
    (∀ (r : RegField) (v : Byte), ∃ t, exec (Format.gi op true .word (.reg r) (.imm8 v)).toInstr s = .next t ∧
      WordArith op r (sext16 v) 3 s t) := by
  refine ⟨fun d reg r => ?_, fun v => ?_, fun r v => ?_, fun r v => ?_⟩
  · rw [exec_rm_reg]
    exact runArith_word hop (s.readOperand_word _) _ 2
  · rw [exec_ia]
    exact runArith_word hop (s.readOperand_immediate v) 0 3
  · rw [exec_gi_reg]
    exact runArith_word hop (s.readOperand_immediate v) r 4
  · rw [exec_gi_reg]
    exact runArith_word hop (s.readOperand_immediate (sext16 v)) r 3

/-- add and sub at w = 0 with a byte view as destination, in every format (rules R164 to R167, R170, R171). -/
theorem exec_byteForms :
    (∀ (d : Direction) (reg r : RegField), ∃ t, exec (Format.rm (.alu op) d .byte reg (.reg r)).toInstr s = .next t ∧
      ByteArith op (destNumber d reg r) (s.readByteReg (sourceNumber d reg r)) 2 s t) ∧
    (∀ v : Byte, ∃ t, exec (Format.ia op (.imm8 v)).toInstr s = .next t ∧ ByteArith op 0 v 2 s t) ∧
    (∀ (sign : Bool) (r : RegField) (v : Byte),
      ∃ t, exec (Format.gi op sign .byte (.reg r) (.imm8 v)).toInstr s = .next t ∧ ByteArith op r v 3 s t) := by
  refine ⟨fun d reg r => ?_, fun v => ?_, fun sign r v => ?_⟩
  · rw [exec_rm_reg]
    exact runArith_byte hop (s.readOperand_byte _) _ 2
  · rw [exec_ia]
    exact runArith_byte hop (s.readOperand_immediate (zext16 v)) 0 2
  · rw [exec_gi_reg]
    exact runArith_byte hop (s.readOperand_immediate (zext16 v)) r 3

end

/-! ### The forms of add, sub and cmp -/

/-- Settles O39: add is one of the two operations that write back. -/
theorem addWordForms : Obligations.AddWordForms := exec_wordForms (op := .add) rfl

/-- Settles O40: add is one of the two operations that write back. -/
theorem addByteForms : Obligations.AddByteForms := exec_byteForms (op := .add) rfl

/-- Settles O41: sub is one of the two operations that write back. -/
theorem subWordForms : Obligations.SubWordForms := exec_wordForms (op := .sub) rfl

/-- Settles O42: sub is one of the two operations that write back. -/
theorem subByteForms : Obligations.SubByteForms := exec_byteForms (op := .sub) rfl

/-- Settles O43: each form is a cmp whose destination is a register; in the group the one byte comes with s = 0, so it
is widened with zeros (rules R88, R89). -/
theorem cmpWordForms : Obligations.CmpWordForms := by
  intro s
  refine ⟨fun d reg r => ?_, fun v => ?_, fun r v => ?_, fun r v => ?_⟩
  · exact exec_of_runArith_cmp (s.readOperand_word _) (s.readOperand_word _) (exec_rm_reg .cmp d .word reg r s)
  · exact exec_of_runArith_cmp (s.readOperand_word 0) (s.readOperand_immediate v) (exec_ia .cmp (.imm16 v) s)
  · exact exec_of_runArith_cmp (s.readOperand_word r) (s.readOperand_immediate v)
      (exec_gi_reg .cmp true .word r (.imm16 v) s)
  · exact exec_of_runArith_cmp (s.readOperand_word r) (s.readOperand_immediate (zext16 v))
      (exec_gi_reg .cmp false .word r (.imm8 v) s)

/-- Settles O44: each form is a cmp whose destination is a byte view. -/
theorem cmpByteForms : Obligations.CmpByteForms := by
  intro s
  refine ⟨fun d reg r => ?_, fun v => ?_, fun sign r v => ?_⟩
  · exact exec_of_runArith_cmp (s.readOperand_byte _) (s.readOperand_byte _) (exec_rm_reg .cmp d .byte reg r s)
  · exact exec_of_runArith_cmp (s.readOperand_byte 0) (s.readOperand_immediate (zext16 v)) (exec_ia .cmp (.imm8 v) s)
  · exact exec_of_runArith_cmp (s.readOperand_byte r) (s.readOperand_immediate (zext16 v))
      (exec_gi_reg .cmp sign .byte r (.imm8 v) s)

/-! ### What the flags say -/

/-- Step 9 of rule R126 for an instruction with an ALU mnemonic. -/
theorem State.execute_of_alu {f : Format} {op : AluOp} {dest : Operand} (hm : formatMnemonic f = .data (.alu op))
    (hd : formatDest f = some dest) (s : State) : s.execute f = s.arith op dest (formatSource f) := by
  simp only [State.execute, hm, hd]

@[simp] theorem recordOf_source (i : Instr) (s : State) : (recordOf i s).source = formatSource i.format := rfl

/-- Settles O45: executing is the arithmetic operation on the record's operands, and writing the pointer keeps the
flags. -/
theorem flagUnitLaw : Obligations.FlagUnitLaw := by
  intro i s op dest a b hm hd ha hb
  rw [recordOf_mnemonic] at hm
  rw [recordOf_dest] at hd
  rw [recordOf_source] at hb
  obtain ⟨hz, hs⟩ := State.arith_flags ha hb op
  refine ⟨_, exec_eq i s, ?_⟩
  rw [State.setPc_zf, State.setPc_sf, State.execute_of_alu hm hd, hz, hs, zeroFlag_eq_true_iff]
  cases op with
  | add => exact ⟨fun _ => ⟨Iff.rfl, rfl⟩, fun h => absurd rfl h⟩
  | sub | cmp => exact ⟨nofun, fun _ => ⟨Iff.rfl, rfl⟩⟩

/-- Settles O46: at w = 0 the 16-bit result is the exact sum, or the difference with the borrow in bit 15. -/
theorem byteArithmeticFlags : Obligations.ByteArithmeticFlags := by
  intro s d reg r
  obtain ⟨tc, hc, _, ⟨hcz, hcs⟩, _⟩ := (cmpByteForms s).1 d reg r
  obtain ⟨ts, hs, ⟨hsv, _⟩, ⟨hsz, hss⟩, _⟩ := (subByteForms s).1 d reg r
  obtain ⟨ta, ha, ⟨hav, _⟩, ⟨haz, has⟩, _⟩ := (addByteForms s).1 d reg r
  refine ⟨⟨tc, hc, hcz.trans (zext_sub_eq_zero_iff _ _), hcs.trans (le_zext_sub_iff _ _)⟩,
    ⟨ts, hs, hsz.trans (zext_sub_eq_zero_iff _ _), hss.trans (le_zext_sub_iff _ _),
      hsv.trans (ofNat_toNat_zext_sub _ _)⟩,
    ⟨ta, ha, ?_, haz.trans (zext_add_eq_zero_iff _ _), hav.trans (ofNat_toNat_zext_add _ _)⟩⟩
  exact Bool.eq_false_iff.2 fun h => Nat.not_le.2 (zext_add_lt _ _) (has.1 h)

/-- Settles O47: a difference is 0 exactly for equal words, a sum exactly where it is 0 or wraps to 0. -/
theorem wordCompareEquality : Obligations.WordCompareEquality := by
  intro s d reg r
  obtain ⟨tc, hc, _, ⟨hcz, _⟩, _⟩ := (cmpWordForms s).1 d reg r
  obtain ⟨ts, hs, _, ⟨hsz, _⟩, _⟩ := (subWordForms s).1 d reg r
  obtain ⟨ta, ha, _, ⟨haz, _⟩, _⟩ := (addWordForms s).1 d reg r
  exact ⟨⟨tc, hc, hcz.trans sub_eq_zero⟩, ⟨ts, hs, hsz.trans sub_eq_zero⟩,
    ⟨ta, ha, haz.trans (word_add_eq_zero_iff _ _)⟩⟩

end Sys2Proof.Machine
end

section
/-! The family of 43_jumps.md: an instruction of format J writes the pointer and nothing else (rules R181, R184), and of
its twenty opcodes only jnz can send the pointer anywhere but past its two bytes. -/

namespace Sys2Proof.Machine

/-! ### Format J writes the pointer alone -/

theorem State.setPc_keeps (s : State) (a : Word) :
    KeepsRegs s (s.setPc a) ∧ KeepsFlags s (s.setPc a) ∧ KeepsRest s (s.setPc a) :=
  ⟨fun r => s.readReg_setPc a r, ⟨s.setPc_zf a, s.setPc_sf a⟩,
    ⟨s.setPc_status a, s.setPc_errHead a, congrArg Memory.length (s.setPc_stream a),
      fun b => congrArg (Memory.byteAt · b) (s.setPc_stream a)⟩⟩

theorem exec_j (c : Jcc) (v : Byte) (s : State) :
    exec (Format.j c v).toInstr s = .next (s.setPc (s.nextPc (.j c v))) := by
  rw [exec_eq, Format.format_toInstr]
  rfl

/-! ### Where the pointer goes -/

/-- With ZF = 0, jnz goes to its displacement byte (rules R181, R182). -/
theorem State.nextPc_jnz_of_clear {s : State} (hz : s.zf = false) (v : Byte) : s.nextPc (.j .jnz v) = zext16 v := by
  simp [State.nextPc, jnzTaken, hz]

/-- With ZF = 1, jnz falls through (rule R181). -/
theorem State.nextPc_jnz_of_set {s : State} (hz : s.zf = true) (v : Byte) :
    s.nextPc (.j .jnz v) = s.pc + BitVec.ofNat 16 2 := by
  simp [State.nextPc, jnzTaken, hz, formatLength]

/-- An opcode that is not wired always falls through (rule R184). -/
theorem State.nextPc_not_wired {c : Jcc} (hc : c ≠ .jnz) (v : Byte) (s : State) :
    s.nextPc (.j c v) = s.pc + BitVec.ofNat 16 2 :=
  s.nextPc_of_not_jnz fun _ h => hc (Format.j.inj h).1

/-- Whatever the opcode, an instruction of format J that falls through advances by two bytes and does nothing else. -/
theorem exec_j_of_fallsThrough {c : Jcc} {v : Byte} {s : State} (h : s.nextPc (.j c v) = s.pc + BitVec.ofNat 16 2) :
    ∃ t, exec (Format.j c v).toInstr s = .next t ∧ AdvancesBy 2 s t ∧
      KeepsRegs s t ∧ KeepsFlags s t ∧ KeepsRest s t :=
  ⟨_, exec_j c v s, (s.setPc_pc _).trans h, s.setPc_keeps _⟩

/-! ### The statements -/

/-- Settles O49: ZF decides which of the two pointers format J writes. -/
theorem jnzJumpsOrFallsThrough : Obligations.JnzJumpsOrFallsThrough := by
  intro s v
  constructor
  · intro hz
    have htarget : (s.setPc (s.nextPc (.j .jnz v))).pc.toNat = v.toNat := by
      rw [State.setPc_pc, State.nextPc_jnz_of_clear hz, zext16_toNat]
    exact ⟨_, exec_j .jnz v s, htarget, s.setPc_keeps _⟩
  · intro hz
    exact exec_j_of_fallsThrough (State.nextPc_jnz_of_set hz v)

/-- Settles O50: the nineteen are the mnemonics of rule R81 other than jnz, in its order. -/
theorem notWiredFallThrough : Obligations.NotWiredFallThrough := by
  intro s v
  change ∀ i ∈ (jccOrder.filter (· ≠ .jnz)).map (fun c => (Format.j c v).toInstr), _
  refine List.forall_mem_map.2 fun c hc => ?_
  have hne : c ≠ .jnz := of_decide_eq_true (List.mem_filter.1 hc).2
  exact exec_j_of_fallsThrough (s.nextPc_not_wired hne v)

end Sys2Proof.Machine
end

section
/-! The family of 60_exceptions.md: the two failures, the three places where a fetch finds them (rule R213), the halt they
lead to, and how the end state is read. What the fetch sees is said by the bytes of the stream at `pc`, in both directions. -/

namespace Sys2Proof.Machine

/-! ### A fetch by the stream's bytes -/

/-- The decoder's first two bytes are the bytes of the stream at `pc` (rule R123). -/
theorem State.fetchWindow_head_iff (s : State) (b0 b1 : Byte) :
    (∃ tl, s.fetchWindow = b0 :: b1 :: tl) ↔
      s.stream.byteAt s.pc.toNat = some b0 ∧ s.stream.byteAt (s.pc.toNat + 1) = some b1 := by
  have h0 : s.fetchWindow[0]? = s.stream.byteAt s.pc.toNat := s.fetchWindow_getElem? (by omega)
  have h1 : s.fetchWindow[1]? = s.stream.byteAt (s.pc.toNat + 1) := s.fetchWindow_getElem? (by omega)
  rw [← h0, ← h1]
  match s.fetchWindow with
  | [] => simp
  | [_] => simp
  | c0 :: c1 :: tl => simp

theorem Memory.lt_size_of_byteAt {m : Memory} {a : Nat} {b : Byte} (h : m.byteAt a = some b) : a < m.size := by
  simpa [h] using m.byteAt_isSome a

/-- A failing fetch has failed at one of the three places of rule R213. -/
theorem State.fetch_error_cases {s : State} {f : Failure} (h : s.fetch = .error f) :
    (s.stream.size < s.pc.toNat + 2 ∧ f = .streamExhausted) ∨
    ∃ b0 b1, s.stream.byteAt s.pc.toNat = some b0 ∧ s.stream.byteAt (s.pc.toNat + 1) = some b1 ∧
      ((classify b0 b1 = none ∧ f = .unrecognizedOpcode (join b0 b1)) ∨
       ∃ k, classify b0 b1 = some k ∧ s.stream.size < s.pc.toNat + headLength k b0 b1 ∧ f = .streamExhausted) := by
  rcases decode_error_cases ((s.fetch_error_iff f).1 h) with
    ⟨hshort, hf⟩ | ⟨b0, b1, tl, hw, hk, hf⟩ | ⟨b0, b1, tl, k, hw, hk, hcut, hf⟩
  · exact .inl ⟨(s.fetchWindow_length_lt_iff (by omega)).1 hshort, hf⟩
  · obtain ⟨h0, h1⟩ := (s.fetchWindow_head_iff b0 b1).1 ⟨tl, hw⟩
    exact .inr ⟨b0, b1, h0, h1, .inl ⟨hk, hf⟩⟩
  · obtain ⟨h0, h1⟩ := (s.fetchWindow_head_iff b0 b1).1 ⟨tl, hw⟩
    have hend := (s.fetchWindow_length_lt_iff (headLength_bounds k b0 b1)).1 hcut
    exact .inr ⟨b0, b1, h0, h1, .inr ⟨k, hk, hend, hf⟩⟩

/-! ### Raising a failure -/

/-- A running core whose fetch fails takes the failure and emits no record (rule R127). -/
theorem step_raises {s : State} {f : Failure} (hrun : s.status = .run) (hf : s.fetch = .error f) :
    step s = .next (s.raise f) ∧ stepRecord s = none :=
  ⟨step_of_fetch_error hrun hf, stepRecord_of_fetch_error hf⟩

/-- The head as rule R212 latches it, high byte first. -/
theorem ofNat_head (b0 b1 : Byte) : BitVec.ofNat 16 (b0.toNat * 256 + b1.toNat) = join b0 b1 := by
  rw [← join_toNat, BitVec.ofNat_toNat, BitVec.setWidth_eq]

/-- Settles O18: the fetch finds no head. -/
theorem headBeyondStreamExhausts : Obligations.HeadBeyondStreamExhausts :=
  fun _ hrun hend => step_raises hrun (State.fetch_of_no_head hend)

/-- Settles O19: the fetch finds a head and no pattern for it. -/
theorem unmatchedHeadHalts : Obligations.UnmatchedHeadHalts := by
  intro s b0 b1 hrun h0 h1 hk
  obtain ⟨tl, hw⟩ := (s.fetchWindow_head_iff b0 b1).2 ⟨h0, h1⟩
  rw [ofNat_head]
  exact step_raises hrun (State.fetch_of_unmatched hw hk)

/-- Settles O20: the fetch finds a head whose instruction is cut by the end of the stream. -/
theorem trailingBytesExhaust : Obligations.TrailingBytesExhaust := by
  intro s b0 b1 k hrun h0 h1 hk hend
  obtain ⟨tl, hw⟩ := (s.fetchWindow_head_iff b0 b1).2 ⟨h0, h1⟩
  exact step_raises hrun (State.fetch_of_cut hw hk hend)

/-! ### Steps that cannot fail to answer -/

/-- Settles O21: a halted core does not fetch (rule R126, step 0). -/
theorem haltedCoreStays : Obligations.HaltedCoreStays :=
  fun _ h => ⟨step_of_halted h, stepRecord_of_halted h⟩

/-- Settles O22: a halted core answers itself, a failing fetch the raised state, and an executed instruction the state
that `exec_eq` writes out for every term. -/
theorem stepAlwaysAnswers : Obligations.StepAlwaysAnswers := by
  refine ⟨fun s => ?_, fun i s => ⟨_, exec_eq i s⟩⟩
  by_cases hrun : s.status = .run
  · cases hf : s.fetch with
    | ok i => exact ⟨_, step_of_fetch_ok hrun hf⟩
    | error f => exact ⟨_, step_of_fetch_error hrun hf⟩
  · exact ⟨s, step_of_halted hrun⟩

/-! ### Reading an end state (rule R217) -/

section
variable {s : State} (hs : s.status = .haltExhausted)
include hs

theorem endReading_of_at_end (h : s.pc.toNat = s.stream.size) : endReading s = some .cleanEnd := by
  simp only [endReading, hs, if_pos h]

theorem endReading_of_before_end (h : s.pc.toNat < s.stream.size) : endReading s = some .truncated := by
  simp only [endReading, hs, if_neg (Nat.ne_of_lt h), if_pos h]

theorem endReading_of_past_end (h : s.stream.size < s.pc.toNat) : endReading s = some .jumpedPastEnd := by
  simp only [endReading, hs, if_neg (Nat.ne_of_gt h), if_neg (Nat.lt_asymm h)]

end

theorem endReading_of_haltUnrecognized {s : State} (hs : s.status = .haltUnrecognized) :
    endReading s = some .unrecognized := by
  simp only [endReading, hs]

theorem LatchesAgree.fetch_of_haltExhausted {s : State} (h : LatchesAgree s) (hs : s.status = .haltExhausted) :
    s.fetch = .error .streamExhausted := by
  simp only [LatchesAgree, hs] at h
  exact h.2

theorem LatchesAgree.fetch_of_haltUnrecognized {s : State} (h : LatchesAgree s) (hs : s.status = .haltUnrecognized) :
    s.fetch = .error (.unrecognizedOpcode s.errHead) := by
  simpa only [LatchesAgree, hs] using h

/-- StreamExhausted comes from the first or the third place of rule R213. -/
theorem State.bytes_of_fetch_exhausted {s : State} (h : s.fetch = .error .streamExhausted) :
    s.stream.size < s.pc.toNat + 2 ∨ ∃ b0 b1 k, s.stream.byteAt s.pc.toNat = some b0 ∧
      s.stream.byteAt (s.pc.toNat + 1) = some b1 ∧ classify b0 b1 = some k ∧
      s.stream.size < s.pc.toNat + headLength k b0 b1 := by
  rcases State.fetch_error_cases h with ⟨hend, _⟩ | ⟨b0, b1, h0, h1, ⟨_, hf⟩ | ⟨k, hk, hend, _⟩⟩
  · exact .inl hend
  · cases hf
  · exact .inr ⟨b0, b1, k, h0, h1, hk, hend⟩

/-- UnrecognizedOpcode comes from the second place of rule R213, and its payload is the head at `pc`. -/
theorem State.bytes_of_fetch_unrecognized {s : State} {head : Word}
    (h : s.fetch = .error (.unrecognizedOpcode head)) :
    ∃ b0 b1, s.stream.byteAt s.pc.toNat = some b0 ∧ s.stream.byteAt (s.pc.toNat + 1) = some b1 ∧
      classify b0 b1 = none ∧ head.toNat = b0.toNat * 256 + b1.toNat := by
  rcases State.fetch_error_cases h with ⟨_, hf⟩ | ⟨b0, b1, h0, h1, ⟨hk, hf⟩ | ⟨_, _, _, hf⟩⟩
  · cases hf
  · cases hf
    exact ⟨b0, b1, h0, h1, hk, join_toNat b0 b1⟩
  · cases hf

/-- Settles O27: the invariant ties the latches to the failure that the fetch at `pc` reports, and a pointer past the end
of the stream is the target of a jnz, so at most 255. -/
theorem endStateReadings : Obligations.EndStateReadings := by
  intro s ⟨_, hpc, hlatch⟩
  constructor
  · intro hs
    rcases Nat.lt_trichotomy s.pc.toNat s.stream.size with hlt | heq | hgt
    · have hbytes := State.bytes_of_fetch_exhausted (hlatch.fetch_of_haltExhausted hs)
      exact .inr (.inl ⟨endReading_of_before_end hs hlt, hlt, hbytes⟩)
    · exact .inl ⟨endReading_of_at_end hs heq, heq⟩
    · have htarget : s.pc.toNat ≤ 255 := hpc.resolve_left (Nat.not_le.2 hgt)
      exact .inr (.inr ⟨endReading_of_past_end hs hgt, hgt, Nat.lt_of_lt_of_le hgt htarget⟩)
  · intro hs
    obtain ⟨b0, b1, h0, h1, hk, hhead⟩ :=
      State.bytes_of_fetch_unrecognized (hlatch.fetch_of_haltUnrecognized hs)
    exact ⟨endReading_of_haltUnrecognized hs, Memory.lt_size_of_byteAt h1, b0, b1, h0, h1, hk, hhead⟩

end Sys2Proof.Machine
end

section
/-! The decoder and the encoder as inverses of each other (rules R70 to R95, R123): what the first bytes of a decoded
list must be, then the displacement and the data bytes in front of the rest, then both round trips. -/

namespace Sys2Proof.Machine

/-! ### The opcode byte that the matcher recognized -/

/-- The one entry of the matcher's table that answers a kind (rules R80, R81, R112). -/
def patternOf : OuterKind → Pattern
  | .rmReg op => ⟨0xFC, rmOp6 op ++ 0b00#2, .rmReg op⟩
  | .movImmReg => ⟨0xF0, 0xB0, .movImmReg⟩
  | .immAcc op => ⟨0xFE, accOp7 op ++ 0b0#1, .immAcc op⟩
  | .grpImmRm => ⟨0xFC, 0x80, .grpImmRm⟩
  | .jcc c => ⟨0xFF, jccOpcode c, .jcc c⟩

theorem eq_patternOf_of_mem : ∀ p ∈ patterns, p = patternOf p.kind := by decide

/-- A recognized opcode byte agrees with the kind's entry on the bits that the mask keeps (rule R112). -/
theorem and_mask_of_matchHead {b0 : Byte} {k : OuterKind} (h : matchHead b0 = some k) :
    b0 &&& (patternOf k).mask = (patternOf k).expected := by
  obtain ⟨p, hp, rfl⟩ := Option.map_eq_some_iff.1 h
  rw [← eq_patternOf_of_mem p (List.mem_of_find?_eq_some hp)]
  have hmatches : p.matchesHead b0 = true := List.find?_some (p := fun q : Pattern => q.matchesHead b0) hp
  exact eq_of_beq hmatches

/-- Format RM's opcode byte is its fixed bits and its d and w bits (rule R72). -/
theorem rmOpcode_of_matchHead {b0 : Byte} {op : DataOp} (h : matchHead b0 = some (.rmReg op)) :
    rmOp6 op ++ directionBit (directionOf (bit b0 1)) ++ widthBit (widthOf (bit b0 0)) = b0 := by
  replace h : b0 &&& 0xFC = rmOp6 op ++ 0b00#2 := and_mask_of_matchHead h
  revert b0
  cases op with
  | mov => decide
  | alu op => cases op <;> decide

/-- Format IR's opcode byte is its fixed bits, its w bit and its register (rule R73). -/
theorem movOpcode_of_matchHead {b0 : Byte} (h : matchHead b0 = some .movImmReg) :
    0b1011#4 ++ widthBit (widthOf (bit b0 3)) ++ field b0 0 3 = b0 := by
  replace h : b0 &&& 0xF0 = 0xB0 := and_mask_of_matchHead h
  revert b0; decide

/-- Format IA's opcode byte is its fixed bits and its w bit (rule R74). -/
theorem accOpcode_of_matchHead {b0 : Byte} {op : AluOp} (h : matchHead b0 = some (.immAcc op)) :
    accOp7 op ++ widthBit (widthOf (bit b0 0)) = b0 := by
  replace h : b0 &&& 0xFE = accOp7 op ++ 0b0#1 := and_mask_of_matchHead h
  revert b0; cases op <;> decide

/-- Format GI's opcode byte is its fixed bits and its s and w bits (rule R75). -/
theorem grpOpcode_of_matchHead {b0 : Byte} (h : matchHead b0 = some .grpImmRm) :
    0b100000#6 ++ BitVec.ofBool (bit b0 1) ++ widthBit (widthOf (bit b0 0)) = b0 := by
  replace h : b0 &&& 0xFC = 0x80 := and_mask_of_matchHead h
  revert b0; decide

/-- A jump is recognized by its whole opcode byte (rules R76, R81). -/
theorem jccOpcode_of_matchHead {b0 : Byte} {c : Jcc} (h : matchHead b0 = some (.jcc c)) : jccOpcode c = b0 := by
  replace h : b0 &&& BitVec.allOnes 8 = jccOpcode c := and_mask_of_matchHead h
  rw [← h, BitVec.and_allOnes]

/-- The first stage's part of a kind (rules R112, R113). -/
def outerKind : Kind → OuterKind
  | .rmReg op => .rmReg op
  | .movImmReg => .movImmReg
  | .immAcc op => .immAcc op
  | .grpImmRm _ => .grpImmRm
  | .jcc c => .jcc c

/-- The second stage keeps the first one's answer, and for the group adds the second byte's operation (rule R113). -/
theorem resolveKind_some {k : OuterKind} {b1 : Byte} {k' : Kind} (h : resolveKind k b1 = some k') :
    k = outerKind k' ∧ ∀ op, k' = .grpImmRm op → groupOp (field b1 3 3) = some op := by
  cases k with
  | grpImmRm =>
    obtain ⟨op, hop, rfl⟩ := Option.map_eq_some_iff.1 h
    exact ⟨rfl, fun _ he => by cases he; exact hop⟩
  | _ => cases h; exact ⟨rfl, fun _ he => by cases he⟩

theorem classify_some {b0 b1 : Byte} {k : Kind} (h : classify b0 b1 = some k) :
    matchHead b0 = some (outerKind k) ∧ ∀ op, k = .grpImmRm op → groupOp (field b1 3 3) = some op := by
  cases hm : matchHead b0 with
  | none => simp [classify, hm] at h
  | some k' =>
    rw [classify_of_matchHead hm] at h
    obtain ⟨rfl, hop⟩ := resolveKind_some h
    exact ⟨rfl, hop⟩

theorem groupCode_of_groupOp {subop : BitVec 3} {op : AluOp} (h : groupOp subop = some op) :
    groupCode op = subop := by
  revert subop; cases op <;> decide

/-! ### The register-or-memory field that the decoder reads -/

/-- Everything that the decoder can read as a register-or-memory field, with the second byte's bits and the displacement
count of each case (rules R82, R84 to R86). -/
theorem decodeRmField_cases (b1 : Byte) (bs : List Byte) :
    (field b1 6 2 = 0b11#2 ∧ headDispCount b1 = 0 ∧ decodeRmField b1 bs = .reg (field b1 0 3)) ∨
    (field b1 6 2 = 0b01#2 ∧ headDispCount b1 = 1 ∧
      decodeRmField b1 bs = .baseDisp8 (field b1 0 3) (byteAtPos bs 2)) ∨
    (field b1 6 2 = 0b10#2 ∧ headDispCount b1 = 2 ∧
      decodeRmField b1 bs = .baseDisp16 (field b1 0 3) (pairAtPos bs 2)) ∨
    (field b1 6 2 = 0b00#2 ∧ field b1 0 3 = 0b110#3 ∧ headDispCount b1 = 2 ∧
      decodeRmField b1 bs = .direct (pairAtPos bs 2)) ∨
    (field b1 6 2 = 0b00#2 ∧ field b1 0 3 ≠ 0b110#3 ∧ headDispCount b1 = 0 ∧
      decodeRmField b1 bs = .base (field b1 0 3)) := by
  have hmod : ∀ m : BitVec 2, m = 0b11#2 ∨ m = 0b01#2 ∨ m = 0b10#2 ∨ m = 0b00#2 := by decide
  obtain ⟨h8, h16, hdirect⟩ := decodeRmField_memory b1 bs
  rcases hmod (field b1 6 2) with h | h | h | h
  · exact .inl ⟨h, by simp [headDispCount, dispCount, h], decodeRmField_register h bs⟩
  · exact .inr (.inl ⟨h, by simp [headDispCount, dispCount, h], h8 h⟩)
  · exact .inr (.inr (.inl ⟨h, by simp [headDispCount, dispCount, h], h16 h⟩))
  · by_cases hrm : field b1 0 3 = 0b110#3
    · exact .inr (.inr (.inr (.inl ⟨h, hrm, by simp [headDispCount, dispCount, h, hrm], hdirect h hrm⟩)))
    · exact .inr (.inr (.inr (.inr ⟨h, hrm, by simp [headDispCount, dispCount, h, hrm],
        by simp [decodeRmField, h, hrm]⟩)))

theorem decodeRmField_wf (b1 : Byte) (bs : List Byte) : (decodeRmField b1 bs).wf = true := by
  rcases decodeRmField_cases b1 bs with ⟨_, _, e⟩ | ⟨_, _, e⟩ | ⟨_, _, e⟩ | ⟨_, _, _, e⟩ | ⟨_, hrm, _, e⟩ <;> rw [e]
  · rfl
  · rfl
  · rfl
  · rfl
  · exact decide_eq_true hrm

theorem bits_of_decodeRmField (b1 : Byte) (bs : List Byte) :
    modBits (decodeRmField b1 bs) = field b1 6 2 ∧ rmBits (decodeRmField b1 bs) = field b1 0 3 := by
  rcases decodeRmField_cases b1 bs with ⟨h, _, e⟩ | ⟨h, _, e⟩ | ⟨h, _, e⟩ | ⟨h, hrm, _, e⟩ | ⟨h, _, _, e⟩ <;>
    rw [e, h]
  · exact ⟨rfl, rfl⟩
  · exact ⟨rfl, rfl⟩
  · exact ⟨rfl, rfl⟩
  · exact ⟨rfl, hrm.symm⟩
  · exact ⟨rfl, rfl⟩

/-- The second byte is its own mod, middle and rm bits (rules R72, R75, R94). -/
theorem modByte_decodeRmField (b1 : Byte) (bs : List Byte) : modByte (decodeRmField b1 bs) (field b1 3 3) = b1 := by
  obtain ⟨hmod, hrm⟩ := bits_of_decodeRmField b1 bs
  rw [modByte, hmod, hrm]
  exact congrArg Prod.snd (encodeRmHead_fields 0 b1)

/-! ### Displacement and data bytes in front of the rest -/

theorem cons_byteAtPos_drop {bs : List Byte} {a : Nat} (h : a < bs.length) :
    byteAtPos bs a :: bs.drop (a + 1) = bs.drop a := by
  rw [List.drop_eq_getElem_cons h, byteAtPos, List.getD_eq_getElem _ _ h]

/-- The two bytes of a little-endian pair, low byte first (rules R53, R55). -/
theorem cons_pairAtPos_drop {bs : List Byte} {a : Nat} (h : a + 2 ≤ bs.length) :
    lowByte (pairAtPos bs a) :: highByte (pairAtPos bs a) :: bs.drop (a + 2) = bs.drop a := by
  rw [pairAtPos, le16, lowByte_join, highByte_join, cons_byteAtPos_drop (a := a + 1) h,
    cons_byteAtPos_drop (Nat.lt_of_succ_lt h)]

/-- The displacement that the decoder reads encodes to the bytes at position 2 (rules R55, R86). -/
theorem dispBytes_decodeRmField_append_drop {b1 : Byte} {bs : List Byte} (h : 2 + headDispCount b1 ≤ bs.length) :
    dispBytes (decodeRmField b1 bs) ++ bs.drop (2 + headDispCount b1) = bs.drop 2 := by
  rcases decodeRmField_cases b1 bs with ⟨_, hn, e⟩ | ⟨_, hn, e⟩ | ⟨_, hn, e⟩ | ⟨_, _, hn, e⟩ | ⟨_, _, hn, e⟩ <;>
    rw [hn] at h ⊢ <;> rw [e]
  · rfl
  · exact cons_byteAtPos_drop h
  · exact cons_pairAtPos_drop h
  · exact cons_pairAtPos_drop h
  · rfl

/-- The immediate that the decoder reads encodes to the bytes at its position (rules R53, R89). -/
theorem immBytes_decodeImm_append_drop {n a : Nat} {bs : List Byte} (hn : n = 1 ∨ n = 2) (h : a + n ≤ bs.length) :
    immBytes (decodeImm n a bs) ++ bs.drop (a + n) = bs.drop a := by
  rcases hn with rfl | rfl
  · exact cons_byteAtPos_drop h
  · exact cons_pairAtPos_drop h

/-! ### Encoding what was decoded -/

/-- The fields that the decoder reads are those of a well-formed instruction (rules R84, R88). -/
theorem formatWf_decodeFields (k : Kind) (b0 b1 : Byte) (bs : List Byte) :
    formatWf (decodeFields k b0 b1 bs) = true := by
  cases k with
  | rmReg op => exact decodeRmField_wf b1 bs
  | grpImmRm op =>
    have hcount := grpDataCount_one_or_two op (bit b0 1) (widthOf (bit b0 0))
    have himm := immCount_decodeImm hcount (2 + headDispCount b1) bs
    exact (Bool.and_eq_true _ _).mpr ⟨decodeRmField_wf b1 bs, decide_eq_true himm⟩
  | movImmReg => rfl
  | immAcc op => rfl
  | jcc c => rfl

/-- The fields read from a classified head and the bytes after it encode to those very bytes (rules R72 to R76, R123). -/
theorem encodeFormat_decodeFields_append_drop {k : Kind} {b0 b1 : Byte} {tl : List Byte}
    (hk : classify b0 b1 = some k) (hlen : headLength k b0 b1 ≤ (b0 :: b1 :: tl).length) :
    encodeFormat (decodeFields k b0 b1 (b0 :: b1 :: tl)) ++ (b0 :: b1 :: tl).drop (headLength k b0 b1) =
      b0 :: b1 :: tl := by
  obtain ⟨hmatch, hgroup⟩ := classify_some hk
  cases k with
  | rmReg op =>
    have hdisp := dispBytes_decodeRmField_append_drop hlen
    rw [decodeFields, encodeFormat, rmOpcode_of_matchHead hmatch, modByte_decodeRmField]
    exact congrArg (b0 :: b1 :: ·) hdisp
  | movImmReg =>
    have himm := immBytes_decodeImm_append_drop (dataCount_one_or_two (widthOf (bit b0 3))) hlen
    rw [decodeFields, encodeFormat, headDataCount, decodeImm_dataCount_width, movOpcode_of_matchHead hmatch]
    exact congrArg (b0 :: ·) himm
  | immAcc op =>
    have himm := immBytes_decodeImm_append_drop (dataCount_one_or_two (widthOf (bit b0 0))) hlen
    rw [decodeFields, encodeFormat, headDataCount, decodeImm_dataCount_width, accOpcode_of_matchHead hmatch]
    exact congrArg (b0 :: ·) himm
  | grpImmRm op =>
    have himm := immBytes_decodeImm_append_drop (grpDataCount_one_or_two op (bit b0 1) (widthOf (bit b0 0))) hlen
    have hdisp := dispBytes_decodeRmField_append_drop (Nat.le_trans (Nat.le_add_right _ _) hlen)
    rw [← himm, ← List.append_assoc] at hdisp
    rw [decodeFields, encodeFormat, grpOpcode_of_matchHead hmatch, groupCode_of_groupOp (hgroup op rfl),
      modByte_decodeRmField]
    exact congrArg (b0 :: b1 :: ·) hdisp
  | jcc c =>
    rw [decodeFields, encodeFormat, jccOpcode_of_matchHead hmatch]
    rfl

/-! ### The statements -/

/-- Settles O1: an encoding decodes to its instruction, and the decoder reads no byte after it. -/
theorem decodeOfEncode : Obligations.DecodeOfEncode := by
  intro i rest hwf
  have hlen := encode_length hwf
  have hd : decode (encode i ++ rest) = .ok (i, (encode i ++ rest).drop i.length) :=
    decode_congr (decode_encode hwf) fun a ha => List.getElem?_append_left (hlen ▸ ha)
  rw [hd, ← hlen, List.drop_left]

/-- Settles O2: the decoder reads well-formed fields, and these encode to the bytes that they were read from. -/
theorem encodeOfDecode : Obligations.EncodeOfDecode := by
  intro bs rest i h
  obtain ⟨b0, b1, tl, k, rfl, hk, hlen, rfl, rfl⟩ := decode_ok_cases h
  rw [Instr.WellFormed, wf_eq_formatWf, encode, Format.format_toInstr]
  exact ⟨formatWf_decodeFields k b0 b1 _, encodeFormat_decodeFields_append_drop hk hlen⟩

end Sys2Proof.Machine
end
